-- ==== Sys2Proof/Word.lean ====
section
/-! DEFINITION. The value types of CQChip8-CORE (spec/00_scope.md R6, R10): every quantity is unsigned. -/

namespace Sys2Proof

/-- An 8-bit value: a `V` or `R` register, a timer, a memory byte, the immediate `kk`. -/
abbrev Byte := BitVec 8

/-- A 16-bit value: an instruction word, `pc`, `I`, a stack entry. -/
abbrev Word := BitVec 16

/-- The 12-bit address operand `nnn` (spec/30_encoding.md R91). -/
abbrev Addr := BitVec 12

/-- A 4-bit register number, key index or count: always in 0..15 (spec/30_encoding.md R93). -/
abbrev Nib := Fin 16

end Sys2Proof
end

