-- ==== Sys2Proof/Config.lean ====
section
/-! DEFINITION. What the spec leaves to the model as named parameters (spec/00_scope.md R7), and the one free
value: the random byte of `RND` (R9). -/

namespace Sys2Proof

/-- The customary digit font, the default of the parameter `fontTable` (spec/20_memory.md R66; the bytes are marked
there as general knowledge: PRESUMED, notes/assumptions/5.md). One glyph of five bytes a line. -/
def customaryFont : Vector Byte 80 := #v[
  0xF0, 0x90, 0x90, 0x90, 0xF0,
  0x20, 0x60, 0x20, 0x20, 0x70,
  0xF0, 0x10, 0xF0, 0x80, 0xF0,
  0xF0, 0x10, 0xF0, 0x10, 0xF0,
  0x90, 0x90, 0xF0, 0x10, 0x10,
  0xF0, 0x80, 0xF0, 0x10, 0xF0,
  0xF0, 0x80, 0xF0, 0x90, 0xF0,
  0xF0, 0x10, 0x20, 0x40, 0x40,
  0xF0, 0x90, 0xF0, 0x90, 0xF0,
  0xF0, 0x90, 0xF0, 0x10, 0xF0,
  0xF0, 0x90, 0xF0, 0x90, 0x90,
  0xE0, 0x90, 0xE0, 0x90, 0xE0,
  0xF0, 0x80, 0x80, 0x80, 0xF0,
  0xE0, 0x90, 0xE0, 0x90, 0xE0,
  0xF0, 0x80, 0xF0, 0x80, 0xF0,
  0xF0, 0x80, 0xF0, 0x80, 0x80]

/-- The configuration of one core, fixed for its life (spec/00_scope.md R7; spec/10_state.md R36, R43).
The defaults are the spec's own. -/
structure Config where
  /-- The Super-CHIP feature gate (R36). -/
  superEnabled : Bool := true
  /-- The 80 bytes every `reset` writes at addresses 0 to 79 (spec/20_memory.md R66). -/
  fontTable : Vector Byte 80 := customaryFont
  /-- Columns `SCR` and `SCL` move in high resolution (spec/41_class0_system.md R145). -/
  scrollAmountHi : Nat := 4
  /-- Columns `SCR` and `SCL` move in low resolution. -/
  scrollAmountLo : Nat := 2
  /-- What the disassembler prints for a word that decodes to no instruction (spec/30_encoding.md R102). -/
  badOpcodeMarker : String := "???"
  deriving DecidableEq, Repr

/-- The random byte of the `k`-th draw (spec/00_scope.md R9, spec/45_index_random.md R201): "a free 8-bit value `rnd`,
drawn anew", under no law. It has no body, so no proof can see a value of it (notes/assumptions/1.md). -/
opaque Config.freeRnd : Nat → Byte

end Sys2Proof
end

