-- ==== Sys2Proof/Machine/State.lean ====
section
/-! DEFINITION. The architectural state of CQChip8-CORE (spec/10_state.md), the four fault codes, and the state after
reset (R44). Two fields are not the spec's state: `cfg`, the configuration, which nothing writes, and `draws`, the
model's own counter of random draws. -/

namespace Sys2Proof.Machine

/-- A framebuffer of `w` columns and `h` rows of 1-bit pixels (spec/10_state.md R35): row 0 the top one, bit `c` of a
row the pixel in column `c`, column 0 the left one. The flat index of R37 is `row * w + column`. -/
abbrev Frame (w h : Nat) := Vector (BitVec w) h

/-- The whole state of the core. -/
structure State where
  /-- `V0..VF` (R20). -/
  V : Vector Byte 16
  /-- The address register (R25): 16 bits stored, value in 0..0xFFF. -/
  I : Word
  /-- The persistent registers `R0..RF` (R28). -/
  R : Vector Byte 16
  /-- The delay timer (R29). -/
  DT : Byte
  /-- The sound timer (R29). -/
  ST : Byte
  /-- The program counter (R30). -/
  pc : Word
  /-- The stack pointer: the depth, 0 to 16 (R32). -/
  SP : BitVec 5
  /-- The sixteen return addresses (R32). -/
  stack : Vector Word 16
  /-- Memory, as the cells that differ from the reset contents, addresses rising (Machine/Memory.lean; R34). -/
  mem : List Host.Cell
  /-- The 64 by 32 framebuffer (R35). -/
  fbLo : Frame 64 32
  /-- The 128 by 64 framebuffer (R35). -/
  fbHi : Frame 128 64
  /-- The resolution gate (R36): true when the 128 by 64 framebuffer is the active one. -/
  highRes : Bool
  /-- The sixteen key lines, true meaning pressed (R39). -/
  key : Vector Bool 16
  /-- The latch holds a released to pressed transition (R41). -/
  latchValid : Bool
  /-- The key of that transition (R41). -/
  latchKey : Nib
  /-- The core is in `WaitingForKey` (R42). -/
  waiting : Bool
  /-- The register the key-wait will write (R42). -/
  waitReg : Nib
  /-- The configuration (spec/00_scope.md R7): constant, written by no operation (R36, R43). -/
  cfg : Config
  /-- The model's own field: how many random bytes have been drawn (notes/assumptions/1.md). -/
  draws : Nat
  deriving DecidableEq, Repr

/-- The four fault codes (spec/60_exceptions.md R270). -/
inductive FaultCode where
  | invalidOpcode
  | stackOverflow
  | stackUnderflow
  | outOfRangeAccess
  deriving DecidableEq, Repr

/-- The number of a fault code; 0 is reserved for no fault (R270). -/
def FaultCode.number : FaultCode → Nat
  | .invalidOpcode => 1
  | .stackOverflow => 2
  | .stackUnderflow => 3
  | .outOfRangeAccess => 4

/-- The `Fault(code)` result of a step (spec/60_exceptions.md R270), with the state R276 says it leaves: a fault ends the
step, not the core, and the next `step` runs from `after` (R277). -/
inductive Fault where
  /-- Raised by decode for a word that is no instruction or a Super-CHIP one while the gate is off (R271).
  Safe: the spec itself raises it. -/
  | invalidOpcode (after : State)
  /-- Raised by `CALL` with sixteen calls outstanding (R272). Safe: the spec itself raises it. -/
  | stackOverflow (after : State)
  /-- Raised by `RET` on an empty stack (R273). Safe: the spec itself raises it. -/
  | stackUnderflow (after : State)
  /-- Raised by a `pc` write, a memory access or a key index out of range (R274). Safe: the spec itself raises it. -/
  | outOfRangeAccess (after : State)
  deriving DecidableEq, Repr

/-- The code the host is given. -/
def Fault.code : Fault → FaultCode
  | .invalidOpcode _ => .invalidOpcode
  | .stackOverflow _ => .stackOverflow
  | .stackUnderflow _ => .stackUnderflow
  | .outOfRangeAccess _ => .outOfRangeAccess

/-- The state the fault leaves (R276). -/
def Fault.after : Fault → State
  | .invalidOpcode s => s
  | .stackOverflow s => s
  | .stackUnderflow s => s
  | .outOfRangeAccess s => s

/-- Why the model has no meaning for an instruction. -/
inductive Refusal where
  /-- Raised only by a refused arm of `exec`; no arm is refused, so no step answers it. Safe. -/
  | notModelled (mnemonic : String)
  deriving DecidableEq, Repr

/-- The state right after the first `reset(true)` (R44, spec/70_reset_and_hazards.md R320), at the default configuration.
Memory lists nothing: an unlisted address reads as its reset contents. The R bank is the model's choice: the spec
calls it an arbitrary input (R28; notes/assumptions/2.md, DESIGN CHOICE), as is `draws` (notes/assumptions/1.md). -/
def State.reset : State where
  V := Vector.replicate 16 0
  I := 0
  R := Vector.replicate 16 0
  DT := 0
  ST := 0
  pc := 0x200
  SP := 0
  stack := Vector.replicate 16 0
  mem := []
  fbLo := Vector.replicate 32 0
  fbHi := Vector.replicate 64 0
  highRes := false
  key := Vector.replicate 16 false
  latchValid := false
  latchKey := 0
  waiting := false
  waitReg := 0
  cfg := {}
  draws := 0

end Sys2Proof.Machine
end

