-- ==== Sys2Proof/Machine/Memory.lean ====
section
/-! DEFINITION. The 4096-byte memory as a list of cells in one canonical form, over what an unlisted address reads as
(spec/20_memory.md R60, R61, R66; spec/10_state.md R44). -/

namespace Sys2Proof.Machine

/-- The reset contents (R44, `reset(true)`): the font at 0 to 79, zero above. It is what an unlisted address reads as. -/
def resetByte (cfg : Config) (a : Nat) : Byte :=
  cfg.fontTable.getD a 0

/-- The byte at an address: the listed one, else the reset contents. -/
def Memory.read (cfg : Config) : List Host.Cell → Nat → Byte
  | [], a => resetByte cfg a
  | (a', b) :: m, a => if a = a' then b else Memory.read cfg m a

/-- Set one byte, keeping the canonical form: writing the reset contents removes the entry. -/
def Memory.write (cfg : Config) : List Host.Cell → Nat → Byte → List Host.Cell
  | [], a, b => if b = resetByte cfg a then [] else [(a, b)]
  | (a', b') :: m, a, b =>
    if a < a' then if b = resetByte cfg a then (a', b') :: m else (a, b) :: (a', b') :: m
    else if a = a' then if b = resetByte cfg a then m else (a, b) :: m
    else (a', b') :: Memory.write cfg m a b

/-- Set consecutive bytes from an address up. -/
def Memory.writeList (cfg : Config) : List Host.Cell → Nat → List Byte → List Host.Cell
  | m, _, [] => m
  | m, a, b :: bs => Memory.writeList cfg (Memory.write cfg m a b) (a + 1) bs

/-- The canonical form: addresses strictly rising and inside the 4096 bytes, no entry equal to the reset contents. -/
abbrev Memory.wf (cfg : Config) (m : List Host.Cell) : Prop :=
  m.Pairwise (fun c c' => c.1 < c'.1) ∧ ∀ c ∈ m, c.1 < 0x1000 ∧ c.2 ≠ resetByte cfg c.1

end Sys2Proof.Machine
end

