-- ==== Sys2Proof/Machine/Ops.lean ====
section
/-! DEFINITION. The named operations every meaning is written with: the pseudocode primitives of
spec/00_scope.md R11, and raising a fault (spec/60_exceptions.md R276). -/

namespace Sys2Proof.Machine

/-- What a step or a meaning answers. -/
abbrev Out := Host.Outcome State Fault Refusal

/-! ## Faults (spec/60_exceptions.md R270, R276, R281) -/

/-- `raise E`: the one way a fault is taken. There is no vector, no handler and no saved register (R275, R281): the host
is given the code, and the state stays as it stands, which inside an instruction is `pc` past it and nothing else
changed, because every meaning checks before its first write (R276). -/
def raise (e : FaultCode) (s : State) : Out :=
  match e with
  | .invalidOpcode => .fault (.invalidOpcode s)
  | .stackOverflow => .fault (.stackOverflow s)
  | .stackUnderflow => .fault (.stackUnderflow s)
  | .outOfRangeAccess => .fault (.outOfRangeAccess s)

/-- Going on after a fault: there is no return instruction and nothing to restore; the host steps the state the fault
left (R277, R282). -/
def resume (f : Fault) : State := f.after

/-- Go on with the state of a completed operation; a fault ends the instruction. -/
def andThen (o : Out) (k : State → Out) : Out :=
  match o with
  | .next s => k s
  | .fault f => .fault f
  | .refused r => .refused r

/-- Apply a function to the state an answer carries, the state a fault leaves among them. -/
def mapOut (f : State → State) (o : Out) : Out :=
  match o with
  | .next s => .next (f s)
  | .fault (.invalidOpcode s) => .fault (.invalidOpcode (f s))
  | .fault (.stackOverflow s) => .fault (.stackOverflow (f s))
  | .fault (.stackUnderflow s) => .fault (.stackUnderflow (f s))
  | .fault (.outOfRangeAccess s) => .fault (.outOfRangeAccess (f s))
  | .refused r => .refused r

/-- A Super-CHIP meaning: `InvalidOpcode` while the gate is off (spec/41_class0_system.md R140, spec/48_class_f.md R250).
Decode already applies the gate (spec/30_encoding.md R94); the meaning repeats it, so that `exec` alone agrees. -/
def whenSuper (s : State) (o : Out) : Out :=
  if s.cfg.superEnabled then o else raise .invalidOpcode s

/-! ## Registers -/

/-- `V[x]`. -/
def State.getV (s : State) (x : Nib) : Byte := s.V[x]

/-- `V[x] <- b`. -/
def State.setV (s : State) (x : Nib) (b : Byte) : State := { s with V := s.V.set x b }

/-- A bank with its entries from `k` up overwritten by the given bytes. -/
def overwrite (bank : Vector Byte 16) (k : Nat) : List Byte → Vector Byte 16
  | [] => bank
  | b :: bs => overwrite (bank.setIfInBounds k b) (k + 1) bs

/-- `SetI(v)` (spec/10_state.md R27): masking, not saturation. The overflow it reports is `indexOverflows`, below. -/
def State.setI (s : State) (v : Nat) : State := { s with I := BitVec.ofNat 16 (v % 0x1000) }

/-- What `SetI(v)` returns (R27). -/
def indexOverflows (v : Nat) : Bool := v > 0xFFF

/-! ## Program counter (spec/10_state.md R31) -/

/-- The values `pc` may take: even, in 0x200..0xFFE. -/
def legalPc (t : Nat) : Bool := !(t < 0x200 || t > 0xFFE || t % 2 = 1)

/-- `pc <- t`, the checked write. -/
def writePc (t : Nat) (s : State) : Out :=
  if legalPc t then .next { s with pc := BitVec.ofNat 16 t } else raise .outOfRangeAccess s

/-- `Skip()` (spec/43_skip.md R174). -/
def skip (s : State) : Out := writePc (s.pc.toNat + 2) s

/-- A conditional skip: `if c then Skip()`. -/
def skipIf (c : Bool) (s : State) : Out := if c then skip s else .next s

/-! ## Call stack (spec/10_state.md R33) -/

/-- `Push(v)`. -/
def push (v : Word) (s : State) : Out :=
  if s.SP.toNat ≥ 16 then raise .stackOverflow s
  else .next { s with stack := s.stack.setIfInBounds s.SP.toNat v, SP := s.SP + 1 }

/-- The entry `Pop()` returns, `stack[SP - 1]`. -/
def State.top (s : State) : Word := s.stack.getD (s.SP.toNat - 1) 0

/-- `Pop()`: the entry's bits stay in place. -/
def pop (s : State) : Out :=
  if s.SP = 0 then raise .stackUnderflow s else .next { s with SP := s.SP - 1 }

/-! ## Memory (spec/20_memory.md R63, R64, R76) -/

/-- The byte an address holds, whoever reads it. -/
def State.peek (s : State) (a : Nat) : Byte := Memory.read s.cfg s.mem a

/-- Put bytes into memory from an address up, unchecked: host writes, and stores after their check. -/
def State.poke (s : State) (a : Nat) (bs : List Byte) : State := { s with mem := Memory.writeList s.cfg s.mem a bs }

/-- `MemRead(addr, 1)`: none when the address is above 0xFFF (R63). -/
def memRead (a : Nat) (s : State) : Option Byte :=
  if a > 0xFFF then none else some (s.peek a)

/-- The bytes at `a .. a+n-1`; none when one of the addresses is out of range (R76: checked before anything moves). -/
def memReads (a : Nat) : Nat → State → Option (List Byte)
  | 0, _ => some []
  | n + 1, s =>
    match memRead a s, memReads (a + 1) n s with
    | some b, some bs => some (b :: bs)
    | _, _ => none

/-- The legal window of an instruction's store (R64): 0x200..0xFFF. -/
def storable (a : Nat) : Bool := 0x200 ≤ a && a ≤ 0xFFF

/-- `MemWrite` of consecutive bytes from `a` up, every address checked before the first byte moves (R64, R76). -/
def memWrites (a : Nat) (bs : List Byte) (s : State) : Out :=
  if (List.range bs.length).all fun i => storable (a + i) then .next (s.poke a bs) else raise .outOfRangeAccess s

end Sys2Proof.Machine
end

