-- ==== Sys2Proof/Machine/Flags.lean ====
section
/-! DEFINITION. The flag outcomes (spec/10_state.md R21, R23, R24): there is no flag register; a flag is the byte 0 or 1
written to `VF`, after the result. -/

namespace Sys2Proof.Machine

/-- The 8-bit value 0 or 1 of a flag (R21). -/
def flagByte (c : Bool) : Byte := if c then 1 else 0

/-- `VF <- flag` (R24: after the result, so that with `x = 15` the flag stays). -/
def State.setFlag (s : State) (c : Bool) : State := s.setV 15 (flagByte c)

/-- `ADD Vx, Vy`: the carry out (R186). -/
def carryOut (a b : Byte) : Bool := a.toNat + b.toNat > 255

/-- `SUB`, `SUBN`: not borrow of `a - b` (R187, R189). -/
def notBorrow (a b : Byte) : Bool := a.toNat ≥ b.toNat

/-- `SHR`: the bit shifted out (R188). -/
def lowBit (a : Byte) : Bool := a.getLsbD 0

/-- `SHL`: the bit shifted out (R190). -/
def highBit (a : Byte) : Bool := a.getLsbD 7

end Sys2Proof.Machine
end

