-- ==== Sys2Proof/Machine/Operands.lean ====
section
/-! DEFINITION. What the operands of an instruction evaluate to: the register blocks of the bulk transfers, the jump
target of `JP V0`, the results of the register ALU, the decimal digits of `LD B` (spec/44_load_alu.md,
spec/48_class_f.md). Decode has already cut the word into its fields (spec/30_encoding.md R91). -/

namespace Sys2Proof.Machine

/-- The bytes `bank[0..x]`, `x + 1` of them. -/
def firstRegs (bank : Vector Byte 16) (x : Nib) : List Byte := bank.toList.take (x.val + 1)

/-- `nnn + V[0]`, unbounded (spec/42_flow.md R161). -/
def offsetTarget (nnn : Addr) (s : State) : Nat := nnn.toNat + (s.getV 0).toNat

/-- `I + V[x]`, unbounded (spec/48_class_f.md R244). -/
def indexSum (x : Nib) (s : State) : Nat := s.I.toNat + (s.getV x).toNat

/-- The address of a digit's glyph, `glyph_base + V[x] * 5` with `glyph_base = 0` and no masking to a digit (R245). -/
def glyphAddress (x : Nib) (s : State) : Nat := 0 + (s.getV x).toNat * 5

/-- The hundreds, tens and ones of a byte (R246). -/
def decimalDigits (v : Byte) : List Byte :=
  [BitVec.ofNat 8 (v.toNat / 100), BitVec.ofNat 8 (v.toNat / 10 % 10), BitVec.ofNat 8 (v.toNat % 10)]

/-- `(a + b) mod 256` (spec/44_load_alu.md R181, R186). -/
def sumByte (a b : Byte) : Byte := BitVec.ofNat 8 ((a.toNat + b.toNat) % 256)

/-- `(a - b) mod 256`, `a - b + 256` when `a < b` (R187, R189). -/
def differenceByte (a b : Byte) : Byte := BitVec.ofInt 8 (((a.toNat : Int) - (b.toNat : Int)) % 256)

/-- `a >> 1` (R188). -/
def halfByte (a : Byte) : Byte := a >>> 1

/-- `(a << 1) mod 256` (R190). -/
def doubleByte (a : Byte) : Byte := a <<< 1

/-- Columns `SCR` and `SCL` move, by resolution (spec/41_class0_system.md R145). -/
def scrollAmount (s : State) : Nat := if s.highRes then s.cfg.scrollAmountHi else s.cfg.scrollAmountLo

end Sys2Proof.Machine
end

