-- ==== Sys2Proof/Machine/ClassF.lean ====
section
/-! DEFINITION. Class 0xF: timers, key read, index arithmetic, memory transfers, R bank (spec/48_class_f.md). -/

namespace Sys2Proof.Machine

/-- `LD Vx, DT` (R240). -/
def execLdXDt (x : Nib) (s : State) : Out := .next (s.setV x s.DT)

/-- `LD Vx, K` (R241): arms the key-wait; `V[x]` is written by a later step (spec/40_step_cycle.md R121). -/
def execLdXK (x : Nib) (s : State) : Out := .next { s with waiting := true, waitReg := x, latchValid := false }

/-- `LD DT, Vx` (R242). -/
def execLdDtX (x : Nib) (s : State) : Out := .next { s with DT := s.getV x }

/-- `LD ST, Vx` (R243). -/
def execLdStX (x : Nib) (s : State) : Out := .next { s with ST := s.getV x }

/-- `ADD I, Vx` (R244): `VF` is written on every execution. -/
def execAddIX (x : Nib) (s : State) : Out :=
  .next ((s.setI (indexSum x s)).setFlag (indexOverflows (indexSum x s)))

/-- `LD F, Vx` (R245). -/
def execLdFX (x : Nib) (s : State) : Out := .next (s.setI (glyphAddress x s))

/-- `LD B, Vx` (R246). -/
def execLdBX (x : Nib) (s : State) : Out := memWrites s.I.toNat (decimalDigits (s.getV x)) s

/-- `LD [I], Vx` (R247). -/
def execLdMemX (x : Nib) (s : State) : Out := memWrites s.I.toNat (firstRegs s.V x) s

/-- `LD Vx, [I]` (R248). -/
def execLdXMem (x : Nib) (s : State) : Out :=
  match memReads s.I.toNat (x.val + 1) s with
  | none => raise .outOfRangeAccess s
  | some bs => .next { s with V := overwrite s.V 0 bs }

/-- `LD R, Vx` (R250). -/
def execLdRX (x : Nib) (s : State) : Out := whenSuper s (.next { s with R := overwrite s.R 0 (firstRegs s.V x) })

/-- `LD Vx, R` (R251). -/
def execLdXR (x : Nib) (s : State) : Out := whenSuper s (.next { s with V := overwrite s.V 0 (firstRegs s.R x) })

end Sys2Proof.Machine
end

