-- ==== Sys2Proof/Machine/Display.lean ====
section
/-! DEFINITION. The display primitives (spec/46_display_draw.md R210 to R214, R216) on the two framebuffers
(spec/10_state.md R35 to R38). -/

namespace Sys2Proof.Machine

/-! ## One framebuffer -/

/-- The pixel at a flat index (R37). -/
def pixelOf {w h : Nat} (fb : Frame w h) (p : Nat) : Bool := (fb.getD (p / w) 0).getLsbD (p % w)

/-- `fb[p] <- fb[p] ^ 1`. -/
def flipPixel {w h : Nat} (fb : Frame w h) (p : Nat) : Frame w h :=
  fb.setIfInBounds (p / w) (fb.getD (p / w) 0 ^^^ BitVec.twoPow w (p % w))

/-- All pixels 0. -/
def blankFrame {w h : Nat} : Frame w h := Vector.replicate h 0

/-- `ScrollDown(n)` (R212): row `r` of the result is the old row `r - n`, rows counted modulo `h`. -/
def scrollDown {w h : Nat} (n : Nat) (fb : Frame w h) : Frame w h :=
  Vector.ofFn fun r => fb.getD ((r.val + (h - n % h)) % h) 0

/-- `ScrollRight(k)` (R213): each row rotates by `k` columns towards the higher columns. -/
def scrollRight {w h : Nat} (k : Nat) (fb : Frame w h) : Frame w h :=
  Vector.ofFn fun r => (fb.getD r.val 0).rotateLeft k

/-- `ScrollLeft(k)` (R214): each row rotates by `k` columns towards the lower columns. -/
def scrollLeft {w h : Nat} (k : Nat) (fb : Frame w h) : Frame w h :=
  Vector.ofFn fun r => (fb.getD r.val 0).rotateRight k

/-- The pixels under the 1 bits of one sprite row, left to right: `((y + r) * W + (x + b)) mod (W * H)`, `y` counting the
row already (R210, R216). -/
def rowTargets (w h x y : Nat) (row : Byte) : List Nat :=
  ((List.range 8).filter fun b => row.getLsbD (7 - b)).map fun b => (y * w + (x + b)) % (w * h)

/-- The pixels under the 1 bits of a sprite whose top row is at `y`, in the order they are drawn. -/
def spriteTargets (w h x : Nat) : Nat → List Byte → List Nat
  | _, [] => []
  | y, row :: rows => rowTargets w h x y row ++ spriteTargets w h x (y + 1) rows

/-- XOR a list of pixels in turn, recording whether one was lit when its turn came (R210). -/
def xorPixels {w h : Nat} : List Nat → Frame w h → Bool → Frame w h × Bool
  | [], fb, collision => (fb, collision)
  | p :: ps, fb, collision => xorPixels ps (flipPixel fb p) (collision || pixelOf fb p)

/-! ## The active framebuffer (R38) -/

/-- `W`. -/
def State.width (s : State) : Nat := if s.highRes then 128 else 64

/-- `H`. -/
def State.height (s : State) : Nat := if s.highRes then 64 else 32

/-- `fb[p]` of the active framebuffer. -/
def State.pixel (s : State) (p : Nat) : Bool := if s.highRes then pixelOf s.fbHi p else pixelOf s.fbLo p

/-- Apply an operation to the active framebuffer; the other is untouched. -/
def State.onActive (s : State) (f : {w h : Nat} → Frame w h → Frame w h) : State :=
  if s.highRes then { s with fbHi := f s.fbHi } else { s with fbLo := f s.fbLo }

/-- `ClearScreen()` (R211): both framebuffers, whichever is active. -/
def clearScreen (s : State) : State := { s with fbLo := blankFrame, fbHi := blankFrame }

/-- XOR a list of pixels into the active framebuffer; with the collision flag. -/
def State.plot (s : State) (ps : List Nat) : State × Bool :=
  if s.highRes then
    let (fb, c) := xorPixels ps s.fbHi false
    ({ s with fbHi := fb }, c)
  else
    let (fb, c) := xorPixels ps s.fbLo false
    ({ s with fbLo := fb }, c)

/-- `DrawSprite(addr, height, x, y)` (R210): none when a row's address is above 0xFFF, and then nothing is drawn. -/
def drawSprite (addr height x y : Nat) (s : State) : Option (State × Bool) :=
  match memReads addr height s with
  | none => none
  | some rows => some (s.plot (spriteTargets s.width s.height x y rows))

end Sys2Proof.Machine
end

