-- ==== Sys2Proof/Machine/Draw.lean ====
section
/-! DEFINITION. Class 0xD: the sprite draw (spec/46_display_draw.md). -/

namespace Sys2Proof.Machine

/-- `DRW Vx, Vy, n` (R215; R217 for `n = 0`): the coordinates are read before `VF` is written. -/
def execDrw (x y n : Nib) (s : State) : Out :=
  match drawSprite s.I.toNat n.val (s.getV x).toNat (s.getV y).toNat s with
  | none => raise .outOfRangeAccess s
  | some (t, collision) => .next (t.setFlag collision)

end Sys2Proof.Machine
end

