-- ==== Sys2Proof/Machine/Flow.lean ====
section
/-! DEFINITION. Jumps and calls (spec/42_flow.md). -/

namespace Sys2Proof.Machine

/-- `JP nnn` (R160). -/
def execJp (nnn : Addr) (s : State) : Out := writePc nnn.toNat s

/-- `JP V0, nnn` (R161): the sum is not masked. -/
def execJpV0 (nnn : Addr) (s : State) : Out := writePc (offsetTarget nnn s) s

/-- `CALL nnn` (R162): a full stack is checked first, the target second, and only then is anything written. -/
def execCall (nnn : Addr) (s : State) : Out :=
  if s.SP.toNat ≥ 16 then raise .stackOverflow s
  else if legalPc nnn.toNat then andThen (push s.pc s) (writePc nnn.toNat)
  else raise .outOfRangeAccess s

end Sys2Proof.Machine
end

