-- ==== Sys2Proof/Machine/LoadAlu.lean ====
section
/-! DEFINITION. Immediate loads and the register ALU (spec/44_load_alu.md), the index load and the random byte
(spec/45_index_random.md). Where a meaning writes a result and a flag, the operands are read first, the result is
written, and the flag is written last (spec/10_state.md R24). -/

namespace Sys2Proof.Machine

/-- `LD Vx, kk` (R180). -/
def execLdKk (x : Nib) (kk : Byte) (s : State) : Out := .next (s.setV x kk)

/-- `ADD Vx, kk` (R181): no flag. -/
def execAddKk (x : Nib) (kk : Byte) (s : State) : Out := .next (s.setV x (sumByte (s.getV x) kk))

/-- `LD Vx, Vy` (R182). -/
def execLdXy (x y : Nib) (s : State) : Out := .next (s.setV x (s.getV y))

/-- `OR Vx, Vy` (R183). -/
def execOr (x y : Nib) (s : State) : Out := .next (s.setV x (s.getV x ||| s.getV y))

/-- `AND Vx, Vy` (R184). -/
def execAnd (x y : Nib) (s : State) : Out := .next (s.setV x (s.getV x &&& s.getV y))

/-- `XOR Vx, Vy` (R185). -/
def execXor (x y : Nib) (s : State) : Out := .next (s.setV x (s.getV x ^^^ s.getV y))

/-- `ADD Vx, Vy` (R186). -/
def execAddXy (x y : Nib) (s : State) : Out :=
  .next ((s.setV x (sumByte (s.getV x) (s.getV y))).setFlag (carryOut (s.getV x) (s.getV y)))

/-- `SUB Vx, Vy` (R187). -/
def execSub (x y : Nib) (s : State) : Out :=
  .next ((s.setV x (differenceByte (s.getV x) (s.getV y))).setFlag (notBorrow (s.getV x) (s.getV y)))

/-- `SHR Vx` (R188): on `V[x]` itself. -/
def execShr (x : Nib) (s : State) : Out :=
  .next ((s.setV x (halfByte (s.getV x))).setFlag (lowBit (s.getV x)))

/-- `SUBN Vx, Vy` (R189). -/
def execSubn (x y : Nib) (s : State) : Out :=
  .next ((s.setV x (differenceByte (s.getV y) (s.getV x))).setFlag (notBorrow (s.getV y) (s.getV x)))

/-- `SHL Vx` (R190): on `V[x]` itself. -/
def execShl (x : Nib) (s : State) : Out :=
  .next ((s.setV x (doubleByte (s.getV x))).setFlag (highBit (s.getV x)))

/-- `LD I, nnn` (R200): nothing is checked and no flag is written. -/
def execLdI (nnn : Addr) (s : State) : Out := .next (s.setI nnn.toNat)

/-- `V[x] <- rnd & kk` for a given random byte (R201). -/
def randomInto (rnd : Byte) (x : Nib) (kk : Byte) (s : State) : State := s.setV x (rnd &&& kk)

/-- `RND Vx, kk` (R201): the step's random byte is the next free draw (notes/assumptions/1.md). -/
def execRnd (x : Nib) (kk : Byte) (s : State) : Out :=
  .next (randomInto (Config.freeRnd s.draws) x kk { s with draws := s.draws + 1 })

end Sys2Proof.Machine
end

