-- ==== Sys2Proof/Machine/Skip.lean ====
section
/-! DEFINITION. Conditional skips (spec/43_skip.md) and key-conditioned skips (spec/47_keys.md). -/

namespace Sys2Proof.Machine

/-- `SE Vx, kk` (R170). -/
def execSeKk (x : Nib) (kk : Byte) (s : State) : Out := skipIf (s.getV x = kk) s

/-- `SNE Vx, kk` (R171). -/
def execSneKk (x : Nib) (kk : Byte) (s : State) : Out := skipIf (s.getV x ≠ kk) s

/-- `SE Vx, Vy` (R172). -/
def execSeXy (x y : Nib) (s : State) : Out := skipIf (s.getV x = s.getV y) s

/-- `SNE Vx, Vy` (R173). -/
def execSneXy (x y : Nib) (s : State) : Out := skipIf (s.getV x ≠ s.getV y) s

/-- The key line whose index is the value of `V[x]`; none when the value is above 15 (spec/47_keys.md R230). -/
def keyNamed (x : Nib) (s : State) : Option Bool := s.key[(s.getV x).toNat]?

/-- `SKP Vx` (R230). -/
def execSkp (x : Nib) (s : State) : Out :=
  match keyNamed x s with
  | none => raise .outOfRangeAccess s
  | some down => skipIf down s

/-- `SKNP Vx` (R231). -/
def execSknp (x : Nib) (s : State) : Out :=
  match keyNamed x s with
  | none => raise .outOfRangeAccess s
  | some down => skipIf (!down) s

end Sys2Proof.Machine
end

