-- ==== Sys2Proof/Machine/System.lean ====
section
/-! DEFINITION. Class 0x0: system, display control, return (spec/41_class0_system.md). Every meaning is written against
the state after the fetch advance (spec/40_step_cycle.md R125). -/

namespace Sys2Proof.Machine

/-- `HALT` (R141): no state written; the step's result is `Halt` (`resultOf`, Machine/Result.lean). -/
def execHalt (s : State) : Out := .next s

/-- `CLS` (R142). -/
def execCls (s : State) : Out := .next (clearScreen s)

/-- `RET` (R143): the `pc` write is checked before `SP` moves. -/
def execRet (s : State) : Out :=
  if s.SP = 0 then raise .stackUnderflow s
  else andThen (writePc s.top.toNat s) pop

/-- `SCD n` (R144). -/
def execScd (n : Nib) (s : State) : Out := whenSuper s (.next (s.onActive (scrollDown n.val)))

/-- `SCR` (R145). -/
def execScr (s : State) : Out := whenSuper s (.next (s.onActive (scrollRight (scrollAmount s))))

/-- `SCL` (R146). -/
def execScl (s : State) : Out := whenSuper s (.next (s.onActive (scrollLeft (scrollAmount s))))

/-- `EXIT` (R147): no state written; the step's result is `Halt`. -/
def execExit (s : State) : Out := whenSuper s (.next s)

/-- `LOW` (R148). -/
def execLow (s : State) : Out := whenSuper s (.next { s with highRes := false })

/-- `HIGH` (R149). -/
def execHigh (s : State) : Out := whenSuper s (.next { s with highRes := true })

/-- `SYS nnn` (R150): a plain jump. -/
def execSys (nnn : Addr) (s : State) : Out := writePc nnn.toNat s

end Sys2Proof.Machine
end

