-- ==== Sys2Proof/Syntax.lean ====
section
/-! DEFINITION. The 44 instructions of spec/opcode_table.json (spec/30_encoding.md R100), one constructor a row.
A nibble the spec says is ignored (`x` of the class 0 special codes, `y` of `SHR` and `SHL`) is carried, so that an
instruction stands for exactly one word; no meaning reads it. -/

namespace Sys2Proof

/-- One decoded instruction. `x`, `y` name `V[x]`, `V[y]`; `kk`, `nnn`, `n` are the immediates of R91; `ign` is an
ignored nibble. -/
inductive Instr where
  | halt                                  -- HALT          0000
  | cls    (ign : Nib)                    -- CLS           0xE0
  | ret    (ign : Nib)                    -- RET           0xEE
  | scd    (ign : Nib) (n : Nib)          -- SCD n         0xCn
  | scr    (ign : Nib)                    -- SCR           0xFB
  | scl    (ign : Nib)                    -- SCL           0xFC
  | exit   (ign : Nib)                    -- EXIT          0xFD
  | low    (ign : Nib)                    -- LOW           0xFE
  | high   (ign : Nib)                    -- HIGH          0xFF
  | sys    (nnn : Addr)                   -- SYS nnn       0nnn otherwise
  | jp     (nnn : Addr)                   -- JP nnn        1nnn
  | call   (nnn : Addr)                   -- CALL nnn      2nnn
  | seKk   (x : Nib) (kk : Byte)          -- SE Vx, kk     3xkk
  | sneKk  (x : Nib) (kk : Byte)          -- SNE Vx, kk    4xkk
  | seXy   (x y : Nib)                    -- SE Vx, Vy     5xy0
  | ldKk   (x : Nib) (kk : Byte)          -- LD Vx, kk     6xkk
  | addKk  (x : Nib) (kk : Byte)          -- ADD Vx, kk    7xkk
  | ldXy   (x y : Nib)                    -- LD Vx, Vy     8xy0
  | or     (x y : Nib)                    -- OR Vx, Vy     8xy1
  | and    (x y : Nib)                    -- AND Vx, Vy    8xy2
  | xor    (x y : Nib)                    -- XOR Vx, Vy    8xy3
  | addXy  (x y : Nib)                    -- ADD Vx, Vy    8xy4
  | sub    (x y : Nib)                    -- SUB Vx, Vy    8xy5
  | shr    (x : Nib) (ign : Nib)          -- SHR Vx        8xy6
  | subn   (x y : Nib)                    -- SUBN Vx, Vy   8xy7
  | shl    (x : Nib) (ign : Nib)          -- SHL Vx        8xyE
  | sneXy  (x y : Nib)                    -- SNE Vx, Vy    9xy0
  | ldI    (nnn : Addr)                   -- LD I, nnn     Annn
  | jpV0   (nnn : Addr)                   -- JP V0, nnn    Bnnn
  | rnd    (x : Nib) (kk : Byte)          -- RND Vx, kk    Cxkk
  | drw    (x y n : Nib)                  -- DRW Vx, Vy, n Dxyn
  | skp    (x : Nib)                      -- SKP Vx        Ex9E
  | sknp   (x : Nib)                      -- SKNP Vx       ExA1
  | ldXDt  (x : Nib)                      -- LD Vx, DT     Fx07
  | ldXK   (x : Nib)                      -- LD Vx, K      Fx0A
  | ldDtX  (x : Nib)                      -- LD DT, Vx     Fx15
  | ldStX  (x : Nib)                      -- LD ST, Vx     Fx18
  | addIX  (x : Nib)                      -- ADD I, Vx     Fx1E
  | ldFX   (x : Nib)                      -- LD F, Vx      Fx29
  | ldBX   (x : Nib)                      -- LD B, Vx      Fx33
  | ldMemX (x : Nib)                      -- LD [I], Vx    Fx55
  | ldXMem (x : Nib)                      -- LD Vx, [I]    Fx65
  | ldRX   (x : Nib)                      -- LD R, Vx      Fx75
  | ldXR   (x : Nib)                      -- LD Vx, R      Fx85
  deriving DecidableEq, Repr

end Sys2Proof
end

