-- ==== Sys2Proof/WellFormed.lean ====
section
/-! DEFINITION. Which `Instr` terms stand for a word. The types carry every operand bound; the one further check is
on `SYS nnn`, whose address must be none of the special codes of class 0 (spec/30_encoding.md R96). -/

namespace Sys2Proof

/-- The second bytes of class 0 that select a special instruction whatever the `x` nibble is (R94, R96). -/
def class0Code (kk : Byte) : Bool :=
  kk = 0xE0 || kk = 0xEE || kk.toNat / 16 = 0xC || kk = 0xFB || kk = 0xFC || kk = 0xFD || kk = 0xFE || kk = 0xFF

/-- An instruction that some word encodes. -/
def wellFormed : Instr → Bool
  | .sys nnn => nnn ≠ 0 && !class0Code (nnn.setWidth 8)
  | .halt | .cls _ | .ret _ | .scd _ _ | .scr _ | .scl _ | .exit _ | .low _ | .high _
  | .jp _ | .call _ | .seKk _ _ | .sneKk _ _ | .seXy _ _ | .ldKk _ _ | .addKk _ _
  | .ldXy _ _ | .or _ _ | .and _ _ | .xor _ _ | .addXy _ _ | .sub _ _ | .shr _ _ | .subn _ _ | .shl _ _
  | .sneXy _ _ | .ldI _ | .jpV0 _ | .rnd _ _ | .drw _ _ _ | .skp _ | .sknp _
  | .ldXDt _ | .ldXK _ | .ldDtX _ | .ldStX _ | .addIX _ | .ldFX _ | .ldBX _
  | .ldMemX _ | .ldXMem _ | .ldRX _ | .ldXR _ => true

/-- The Super-CHIP members of the table, the ones `superEnabled` gates (spec/30_encoding.md R94, R99). -/
def isSuper : Instr → Bool
  | .scd _ _ | .scr _ | .scl _ | .exit _ | .low _ | .high _ | .ldRX _ | .ldXR _ => true
  | .halt | .cls _ | .ret _ | .sys _ | .jp _ | .call _ | .seKk _ _ | .sneKk _ _ | .seXy _ _ | .ldKk _ _ | .addKk _ _
  | .ldXy _ _ | .or _ _ | .and _ _ | .xor _ _ | .addXy _ _ | .sub _ _ | .shr _ _ | .subn _ _ | .shl _ _
  | .sneXy _ _ | .ldI _ | .jpV0 _ | .rnd _ _ | .drw _ _ _ | .skp _ | .sknp _
  | .ldXDt _ | .ldXK _ | .ldDtX _ | .ldStX _ | .addIX _ | .ldFX _ | .ldBX _ | .ldMemX _ | .ldXMem _ => false

end Sys2Proof
end

