-- ==== Sys2Proof/Decode.lean ====
section
/-! DEFINITION. Decoding (spec/30_encoding.md R90 to R99): total on every word and every byte list, each rejection
under a name of its own; then the encoder, written from the same table (R100). -/

namespace Sys2Proof

/-! ## Fields (R91) -/

/-- `class`, `w[15:12]`. -/
def fieldClass (w : Word) : Nib := (w.extractLsb' 12 4).toFin

/-- `x`, `w[11:8]`. -/
def fieldX (w : Word) : Nib := (w.extractLsb' 8 4).toFin

/-- `y`, `w[7:4]`. -/
def fieldY (w : Word) : Nib := (w.extractLsb' 4 4).toFin

/-- `v3` (also `n`), `w[3:0]`. -/
def fieldV3 (w : Word) : Nib := (w.extractLsb' 0 4).toFin

/-- `kk`, `w[7:0]`. -/
def fieldKk (w : Word) : Byte := w.extractLsb' 0 8

/-- `nnn`, `w[11:0]`. -/
def fieldNnn (w : Word) : Addr := w.extractLsb' 0 12

/-! ## The decode procedure (R94) -/

/-- Why a word is no instruction: the rows of R99, and a byte list too short to hold a word. -/
inductive Reject where
  /-- `5xyN` with `N ≠ 0`. -/
  | class5
  /-- `8xyN` with `N` in 8..0xD or 0xF. -/
  | class8
  /-- `9xyN` with `N ≠ 0`. -/
  | class9
  /-- `Exkk` with `kk` neither 0x9E nor 0xA1. -/
  | classE
  /-- `Fxkk` with `kk` not in the class 0xF list. -/
  | classF
  /-- A Super-CHIP word while `superEnabled` is false. -/
  | superDisabled
  /-- Fewer than two bytes. -/
  | truncated
  deriving DecidableEq, Repr

/-- `Super(op)` of R94. -/
def superOnly (superEnabled : Bool) (i : Instr) : Except Reject Instr :=
  if superEnabled then .ok i else .error .superDisabled

/-- Class 0x0: sub-dispatch on the full second byte (R94, R96). -/
def decodeClass0 (superEnabled : Bool) (w : Word) : Except Reject Instr :=
  if w = 0 then .ok .halt
  else if fieldKk w = 0xE0 then .ok (.cls (fieldX w))
  else if fieldKk w = 0xEE then .ok (.ret (fieldX w))
  else if fieldY w = 0xC then superOnly superEnabled (.scd (fieldX w) (fieldV3 w))
  else if fieldKk w = 0xFB then superOnly superEnabled (.scr (fieldX w))
  else if fieldKk w = 0xFC then superOnly superEnabled (.scl (fieldX w))
  else if fieldKk w = 0xFD then superOnly superEnabled (.exit (fieldX w))
  else if fieldKk w = 0xFE then superOnly superEnabled (.low (fieldX w))
  else if fieldKk w = 0xFF then superOnly superEnabled (.high (fieldX w))
  else .ok (.sys (fieldNnn w))

/-- Class 0x8: the ALU family selected by `v3` (R94, R97). -/
def decodeClass8 (w : Word) : Except Reject Instr :=
  match (fieldV3 w).val with
  | 0x0 => .ok (.ldXy (fieldX w) (fieldY w))
  | 0x1 => .ok (.or (fieldX w) (fieldY w))
  | 0x2 => .ok (.and (fieldX w) (fieldY w))
  | 0x3 => .ok (.xor (fieldX w) (fieldY w))
  | 0x4 => .ok (.addXy (fieldX w) (fieldY w))
  | 0x5 => .ok (.sub (fieldX w) (fieldY w))
  | 0x6 => .ok (.shr (fieldX w) (fieldY w))
  | 0x7 => .ok (.subn (fieldX w) (fieldY w))
  | 0xE => .ok (.shl (fieldX w) (fieldY w))
  | _ => .error .class8

/-- Class 0xE: selected by `kk` (R94, R98). -/
def decodeClassE (w : Word) : Except Reject Instr :=
  if fieldKk w = 0x9E then .ok (.skp (fieldX w))
  else if fieldKk w = 0xA1 then .ok (.sknp (fieldX w))
  else .error .classE

/-- Class 0xF: selected by `kk` (R94, R98). -/
def decodeClassF (superEnabled : Bool) (w : Word) : Except Reject Instr :=
  if fieldKk w = 0x07 then .ok (.ldXDt (fieldX w))
  else if fieldKk w = 0x0A then .ok (.ldXK (fieldX w))
  else if fieldKk w = 0x15 then .ok (.ldDtX (fieldX w))
  else if fieldKk w = 0x18 then .ok (.ldStX (fieldX w))
  else if fieldKk w = 0x1E then .ok (.addIX (fieldX w))
  else if fieldKk w = 0x29 then .ok (.ldFX (fieldX w))
  else if fieldKk w = 0x33 then .ok (.ldBX (fieldX w))
  else if fieldKk w = 0x55 then .ok (.ldMemX (fieldX w))
  else if fieldKk w = 0x65 then .ok (.ldXMem (fieldX w))
  else if fieldKk w = 0x75 then superOnly superEnabled (.ldRX (fieldX w))
  else if fieldKk w = 0x85 then superOnly superEnabled (.ldXR (fieldX w))
  else .error .classF

/-- `Decode(w, superEnabled)` of R94. Every `.error` is the verdict `InvalidOpcode`. -/
def decodeWord (superEnabled : Bool) (w : Word) : Except Reject Instr :=
  match (fieldClass w).val with
  | 0x0 => decodeClass0 superEnabled w
  | 0x1 => .ok (.jp (fieldNnn w))
  | 0x2 => .ok (.call (fieldNnn w))
  | 0x3 => .ok (.seKk (fieldX w) (fieldKk w))
  | 0x4 => .ok (.sneKk (fieldX w) (fieldKk w))
  | 0x5 => if fieldV3 w = 0 then .ok (.seXy (fieldX w) (fieldY w)) else .error .class5
  | 0x6 => .ok (.ldKk (fieldX w) (fieldKk w))
  | 0x7 => .ok (.addKk (fieldX w) (fieldKk w))
  | 0x8 => decodeClass8 w
  | 0x9 => if fieldV3 w = 0 then .ok (.sneXy (fieldX w) (fieldY w)) else .error .class9
  | 0xA => .ok (.ldI (fieldNnn w))
  | 0xB => .ok (.jpV0 (fieldNnn w))
  | 0xC => .ok (.rnd (fieldX w) (fieldKk w))
  | 0xD => .ok (.drw (fieldX w) (fieldY w) (fieldV3 w))
  | 0xE => decodeClassE w
  | _ => decodeClassF superEnabled w

/-- A word from its two bytes, the byte at the lower address the most significant (spec/20_memory.md R62). -/
def wordOfBytes (b0 b1 : Byte) : Word := b0 ++ b1

/-- The decoder on a byte sequence: one instruction and the bytes after it (R90: always two bytes). -/
def decodeBytes (superEnabled : Bool) : List Byte → Except Reject (Instr × List Byte)
  | b0 :: b1 :: rest =>
    match decodeWord superEnabled (wordOfBytes b0 b1) with
    | .ok i => .ok (i, rest)
    | .error e => .error e
  | [_] => .error .truncated
  | [] => .error .truncated

/-! ## The encoder (R92, R100) -/

/-- The word with the four given nibbles, most significant first. -/
def word4 (c x y n : Nat) : Word := BitVec.ofNat 16 (c * 0x1000 + x * 0x100 + y * 0x10 + n)

/-- Formats `XKK`, `XS` and `S`: class, `x` nibble, second byte. -/
def word211 (c x kk : Nat) : Word := BitVec.ofNat 16 (c * 0x1000 + x * 0x100 + kk)

/-- Format `NNN`: class and 12-bit address. -/
def word13 (c nnn : Nat) : Word := BitVec.ofNat 16 (c * 0x1000 + nnn)

/-- The word of an instruction, from the table of R100. -/
def encode : Instr → Word
  | .halt => 0x0000
  | .cls i => word211 0x0 i 0xE0
  | .ret i => word211 0x0 i 0xEE
  | .scd i n => word4 0x0 i 0xC n
  | .scr i => word211 0x0 i 0xFB
  | .scl i => word211 0x0 i 0xFC
  | .exit i => word211 0x0 i 0xFD
  | .low i => word211 0x0 i 0xFE
  | .high i => word211 0x0 i 0xFF
  | .sys nnn => word13 0x0 nnn.toNat
  | .jp nnn => word13 0x1 nnn.toNat
  | .call nnn => word13 0x2 nnn.toNat
  | .seKk x kk => word211 0x3 x kk.toNat
  | .sneKk x kk => word211 0x4 x kk.toNat
  | .seXy x y => word4 0x5 x y 0x0
  | .ldKk x kk => word211 0x6 x kk.toNat
  | .addKk x kk => word211 0x7 x kk.toNat
  | .ldXy x y => word4 0x8 x y 0x0
  | .or x y => word4 0x8 x y 0x1
  | .and x y => word4 0x8 x y 0x2
  | .xor x y => word4 0x8 x y 0x3
  | .addXy x y => word4 0x8 x y 0x4
  | .sub x y => word4 0x8 x y 0x5
  | .shr x i => word4 0x8 x i 0x6
  | .subn x y => word4 0x8 x y 0x7
  | .shl x i => word4 0x8 x i 0xE
  | .sneXy x y => word4 0x9 x y 0x0
  | .ldI nnn => word13 0xA nnn.toNat
  | .jpV0 nnn => word13 0xB nnn.toNat
  | .rnd x kk => word211 0xC x kk.toNat
  | .drw x y n => word4 0xD x y n
  | .skp x => word211 0xE x 0x9E
  | .sknp x => word211 0xE x 0xA1
  | .ldXDt x => word211 0xF x 0x07
  | .ldXK x => word211 0xF x 0x0A
  | .ldDtX x => word211 0xF x 0x15
  | .ldStX x => word211 0xF x 0x18
  | .addIX x => word211 0xF x 0x1E
  | .ldFX x => word211 0xF x 0x29
  | .ldBX x => word211 0xF x 0x33
  | .ldMemX x => word211 0xF x 0x55
  | .ldXMem x => word211 0xF x 0x65
  | .ldRX x => word211 0xF x 0x75
  | .ldXR x => word211 0xF x 0x85

/-- The two bytes of a word, as memory holds them: the high byte first (spec/20_memory.md R62). -/
def bytesOfWord (w : Word) : List Byte := [w.extractLsb' 8 8, w.extractLsb' 0 8]

/-! ## The table's own numbering of bits -/

/-- The instruction the decoder reads from a table word (bit 0 the least significant bit of the one 16-bit word), at
the default configuration, whose `superEnabled` is true (notes/assumptions/4.md). -/
def decodeTableWord (nbits w : Nat) : Option Instr :=
  match decodeBytes true (bytesOfWord (BitVec.ofNat 16 (w % 2 ^ nbits))) with
  | .ok (i, _) => some i
  | .error _ => none

end Sys2Proof
end

