-- ==== Sys2Proof/Machine/Fetch.lean ====
section
/-! DEFINITION. The parts of a step around an instruction's meaning: fetch, advance, decode, and the key-wait check
(spec/40_step_cycle.md R120 to R124). -/

namespace Sys2Proof.Machine

/-- `Fetch()` (R122): the word at `pc`, high byte first; none when a read is out of range, which a legal `pc` rules out. -/
def fetch (s : State) : Option Word :=
  match memRead s.pc.toNat s, memRead (s.pc.toNat + 1) s with
  | some b0, some b1 => some (wordOfBytes b0 b1)
  | _, _ => none

/-- The state with `pc` past the fetched word (R123). -/
def State.advanced (s : State) : State := { s with pc := s.pc + 2 }

/-- Fetch, advance, decode, in R120's order: the instruction and the state its meaning starts from, or the fault. The
advance is a checked `pc` write: at 0xFFE it fails and nothing changes (R123); an invalid word faults after it (R124). -/
def fetchDecode (s : State) : Except Fault (Instr × State) :=
  match fetch s with
  | none => .error (.outOfRangeAccess s)
  | some w =>
    if legalPc (s.pc.toNat + 2) then
      match decodeWord s.cfg.superEnabled w with
      | .error _ => .error (.invalidOpcode s.advanced)
      | .ok i => .ok (i, s.advanced)
    else .error (.outOfRangeAccess s)

/-- `KeyWaitCheck()` (R121): deliver the latched key, or change nothing. -/
def keyWaitCheck (s : State) : State :=
  if s.latchValid then
    { s.setV s.waitReg (BitVec.ofNat 8 s.latchKey.val) with waiting := false, latchValid := false }
  else s

end Sys2Proof.Machine
end

