-- ==== Sys2Proof/Machine/Step.lean ====
section
/-! DEFINITION. One `step` (spec/40_step_cycle.md R120), and where its next instruction stands. -/

namespace Sys2Proof.Machine

/-- One step (R120): the key-wait check while waiting, else one instruction. A fault answers its code together with the
state it leaves (spec/60_exceptions.md R276). -/
def step (s : State) : Host.Outcome State Fault Refusal :=
  if s.waiting then .next (keyWaitCheck s)
  else
    match fetchDecode s with
    | .error f => .fault f
    | .ok (i, s') => exec i s'

/-- `s` with the given table word stored at `pc`, high byte first, and no key-wait pending, so that the next step fetches
and runs it. A program comes to run the same way: the host's `loadProgram` puts its bytes at 0x200
(notes/assumptions/4.md). -/
def State.withFetchWord (s : State) (nbits w : Nat) : State :=
  { s.poke s.pc.toNat (bytesOfWord (BitVec.ofNat 16 (w % 2 ^ nbits))) with waiting := false }

end Sys2Proof.Machine
end

