-- ==== Sys2Proof/Machine/OpcodeTable.lean ====
section
/-! DEFINITION. The opcode table as data (spec/opcode_table.json), and the selection by `match` and `mask` that
spec/30_encoding.md R94 gives beside the decode procedure: `w & mask = match`, and where several rows match the row
whose mask has the most one bits. The decoder of Decode.lean does not use it: it is the second description, against
which the first is checked. -/

namespace Sys2Proof.Machine

/-- One row of the table. -/
structure OpcodeRow where
  mnemonic : String
  matched : Nat
  mask : Nat
  isSuper : Bool
  deriving DecidableEq, Repr

/-- Class 0x0. -/
def classRows0 : List OpcodeRow := [
  ⟨"HALT", 0x0000, 0xFFFF, false⟩,
  ⟨"CLS", 0x00E0, 0xF0FF, false⟩,
  ⟨"RET", 0x00EE, 0xF0FF, false⟩,
  ⟨"SCD_n", 0x00C0, 0xF0F0, true⟩,
  ⟨"SCR", 0x00FB, 0xF0FF, true⟩,
  ⟨"SCL", 0x00FC, 0xF0FF, true⟩,
  ⟨"EXIT", 0x00FD, 0xF0FF, true⟩,
  ⟨"LOW", 0x00FE, 0xF0FF, true⟩,
  ⟨"HIGH", 0x00FF, 0xF0FF, true⟩,
  ⟨"SYS_nnn", 0x0000, 0xF000, false⟩]

/-- Classes 0x1 to 0x7. -/
def classRows1 : List OpcodeRow := [
  ⟨"JP_nnn", 0x1000, 0xF000, false⟩,
  ⟨"CALL_nnn", 0x2000, 0xF000, false⟩,
  ⟨"SE_Vx__kk", 0x3000, 0xF000, false⟩,
  ⟨"SNE_Vx__kk", 0x4000, 0xF000, false⟩,
  ⟨"SE_Vx__Vy", 0x5000, 0xF00F, false⟩,
  ⟨"LD_Vx__kk", 0x6000, 0xF000, false⟩,
  ⟨"ADD_Vx__kk", 0x7000, 0xF000, false⟩]

/-- Class 0x8. -/
def classRows8 : List OpcodeRow := [
  ⟨"LD_Vx__Vy", 0x8000, 0xF00F, false⟩,
  ⟨"OR_Vx__Vy", 0x8001, 0xF00F, false⟩,
  ⟨"AND_Vx__Vy", 0x8002, 0xF00F, false⟩,
  ⟨"XOR_Vx__Vy", 0x8003, 0xF00F, false⟩,
  ⟨"ADD_Vx__Vy", 0x8004, 0xF00F, false⟩,
  ⟨"SUB_Vx__Vy", 0x8005, 0xF00F, false⟩,
  ⟨"SHR_Vx", 0x8006, 0xF00F, false⟩,
  ⟨"SUBN_Vx__Vy", 0x8007, 0xF00F, false⟩,
  ⟨"SHL_Vx", 0x800E, 0xF00F, false⟩]

/-- Classes 0x9 to 0xE. -/
def classRows9 : List OpcodeRow := [
  ⟨"SNE_Vx__Vy", 0x9000, 0xF00F, false⟩,
  ⟨"LD_I__nnn", 0xA000, 0xF000, false⟩,
  ⟨"JP_V0__nnn", 0xB000, 0xF000, false⟩,
  ⟨"RND_Vx__kk", 0xC000, 0xF000, false⟩,
  ⟨"DRW_Vx__Vy__n", 0xD000, 0xF000, false⟩,
  ⟨"SKP_Vx", 0xE09E, 0xF0FF, false⟩,
  ⟨"SKNP_Vx", 0xE0A1, 0xF0FF, false⟩]

/-- Class 0xF. -/
def classRowsF : List OpcodeRow := [
  ⟨"LD_Vx__DT", 0xF007, 0xF0FF, false⟩,
  ⟨"LD_Vx__K", 0xF00A, 0xF0FF, false⟩,
  ⟨"LD_DT__Vx", 0xF015, 0xF0FF, false⟩,
  ⟨"LD_ST__Vx", 0xF018, 0xF0FF, false⟩,
  ⟨"ADD_I__Vx", 0xF01E, 0xF0FF, false⟩,
  ⟨"LD_F__Vx", 0xF029, 0xF0FF, false⟩,
  ⟨"LD_B__Vx", 0xF033, 0xF0FF, false⟩,
  ⟨"LD__I___Vx", 0xF055, 0xF0FF, false⟩,
  ⟨"LD_Vx___I", 0xF065, 0xF0FF, false⟩,
  ⟨"LD_R__Vx", 0xF075, 0xF0FF, true⟩,
  ⟨"LD_Vx__R", 0xF085, 0xF0FF, true⟩]

/-- The 44 rows. -/
def opcodeTable : List OpcodeRow := classRows0 ++ classRows1 ++ classRows8 ++ classRows9 ++ classRowsF

/-- How many one bits a 16-bit number has. -/
def oneBits (n : Nat) : Nat := (List.range 16).countP fun k => n.testBit k

/-- Among the rows that match, the one whose mask has the most one bits. -/
def selectRow (w : Nat) : List OpcodeRow → Option OpcodeRow
  | [] => none
  | r :: rs =>
    if w &&& r.mask = r.matched then
      match selectRow w rs with
      | none => some r
      | some q => if oneBits r.mask ≥ oneBits q.mask then some r else some q
    else selectRow w rs

/-- The row an instruction stands for, by its mnemonic in the table. -/
def tableMnemonic : Instr → String
  | .halt => "HALT"
  | .cls _ => "CLS"
  | .ret _ => "RET"
  | .scd _ _ => "SCD_n"
  | .scr _ => "SCR"
  | .scl _ => "SCL"
  | .exit _ => "EXIT"
  | .low _ => "LOW"
  | .high _ => "HIGH"
  | .sys _ => "SYS_nnn"
  | .jp _ => "JP_nnn"
  | .call _ => "CALL_nnn"
  | .seKk _ _ => "SE_Vx__kk"
  | .sneKk _ _ => "SNE_Vx__kk"
  | .seXy _ _ => "SE_Vx__Vy"
  | .ldKk _ _ => "LD_Vx__kk"
  | .addKk _ _ => "ADD_Vx__kk"
  | .ldXy _ _ => "LD_Vx__Vy"
  | .or _ _ => "OR_Vx__Vy"
  | .and _ _ => "AND_Vx__Vy"
  | .xor _ _ => "XOR_Vx__Vy"
  | .addXy _ _ => "ADD_Vx__Vy"
  | .sub _ _ => "SUB_Vx__Vy"
  | .shr _ _ => "SHR_Vx"
  | .subn _ _ => "SUBN_Vx__Vy"
  | .shl _ _ => "SHL_Vx"
  | .sneXy _ _ => "SNE_Vx__Vy"
  | .ldI _ => "LD_I__nnn"
  | .jpV0 _ => "JP_V0__nnn"
  | .rnd _ _ => "RND_Vx__kk"
  | .drw _ _ _ => "DRW_Vx__Vy__n"
  | .skp _ => "SKP_Vx"
  | .sknp _ => "SKNP_Vx"
  | .ldXDt _ => "LD_Vx__DT"
  | .ldXK _ => "LD_Vx__K"
  | .ldDtX _ => "LD_DT__Vx"
  | .ldStX _ => "LD_ST__Vx"
  | .addIX _ => "ADD_I__Vx"
  | .ldFX _ => "LD_F__Vx"
  | .ldBX _ => "LD_B__Vx"
  | .ldMemX _ => "LD__I___Vx"
  | .ldXMem _ => "LD_Vx___I"
  | .ldRX _ => "LD_R__Vx"
  | .ldXR _ => "LD_Vx__R"

end Sys2Proof.Machine
end

