-- ==== Sys2Proof/Machine/Disasm.lean ====
section
/-! DEFINITION. The disassembler (spec/30_encoding.md R102, R103): a pure function of memory, over the one decoder. -/

namespace Sys2Proof.Machine

/-- One uppercase hexadecimal digit. -/
def hexDigit (n : Nat) : String :=
  match n with
  | 0 => "0" | 1 => "1" | 2 => "2" | 3 => "3" | 4 => "4" | 5 => "5" | 6 => "6" | 7 => "7"
  | 8 => "8" | 9 => "9" | 10 => "A" | 11 => "B" | 12 => "C" | 13 => "D" | 14 => "E" | _ => "F"

/-- A number below 0x1000 in uppercase hexadecimal, no leading zeros, no marker (R103). -/
def hex (n : Nat) : String :=
  if n < 0x10 then hexDigit n
  else if n < 0x100 then hexDigit (n / 0x10) ++ hexDigit (n % 0x10)
  else hexDigit (n / 0x100) ++ hexDigit (n / 0x10 % 0x10) ++ hexDigit (n % 0x10)

/-- A register: `V` and one digit. -/
def regName (x : Nib) : String := "V" ++ hexDigit x.val

/-- A mnemonic with one operand. -/
def line1 (m a : String) : String := m ++ " " ++ a

/-- A mnemonic with two operands, separated by a comma and one space. -/
def line2 (m a b : String) : String := m ++ " " ++ a ++ ", " ++ b

/-- The canonical string of an instruction (R100, R103). -/
def mnemonicString : Instr → String
  | .halt => "HALT"
  | .cls _ => "CLS"
  | .ret _ => "RET"
  | .scd _ n => line1 "SCD" (hex n.val)
  | .scr _ => "SCR"
  | .scl _ => "SCL"
  | .exit _ => "EXIT"
  | .low _ => "LOW"
  | .high _ => "HIGH"
  | .sys nnn => line1 "SYS" (hex nnn.toNat)
  | .jp nnn => line1 "JP" (hex nnn.toNat)
  | .call nnn => line1 "CALL" (hex nnn.toNat)
  | .seKk x kk => line2 "SE" (regName x) (hex kk.toNat)
  | .sneKk x kk => line2 "SNE" (regName x) (hex kk.toNat)
  | .seXy x y => line2 "SE" (regName x) (regName y)
  | .ldKk x kk => line2 "LD" (regName x) (hex kk.toNat)
  | .addKk x kk => line2 "ADD" (regName x) (hex kk.toNat)
  | .ldXy x y => line2 "LD" (regName x) (regName y)
  | .or x y => line2 "OR" (regName x) (regName y)
  | .and x y => line2 "AND" (regName x) (regName y)
  | .xor x y => line2 "XOR" (regName x) (regName y)
  | .addXy x y => line2 "ADD" (regName x) (regName y)
  | .sub x y => line2 "SUB" (regName x) (regName y)
  | .shr x _ => line1 "SHR" (regName x)
  | .subn x y => line2 "SUBN" (regName x) (regName y)
  | .shl x _ => line1 "SHL" (regName x)
  | .sneXy x y => line2 "SNE" (regName x) (regName y)
  | .ldI nnn => line2 "LD" "I" (hex nnn.toNat)
  | .jpV0 nnn => line2 "JP" "V0" (hex nnn.toNat)
  | .rnd x kk => line2 "RND" (regName x) (hex kk.toNat)
  | .drw x y n => line2 "DRW" (regName x) (regName y) ++ ", " ++ hex n.val
  | .skp x => line1 "SKP" (regName x)
  | .sknp x => line1 "SKNP" (regName x)
  | .ldXDt x => line2 "LD" (regName x) "DT"
  | .ldXK x => line2 "LD" (regName x) "K"
  | .ldDtX x => line2 "LD" "DT" (regName x)
  | .ldStX x => line2 "LD" "ST" (regName x)
  | .addIX x => line2 "ADD" "I" (regName x)
  | .ldFX x => line2 "LD" "F" (regName x)
  | .ldBX x => line2 "LD" "B" (regName x)
  | .ldMemX x => line2 "LD" "[I]" (regName x)
  | .ldXMem x => line2 "LD" (regName x) "[I]"
  | .ldRX x => line2 "LD" "R" (regName x)
  | .ldXR x => line2 "LD" (regName x) "R"

/-- `disassemble(address)` (R102): the marker for an invalid word and for an address above 0xFFE. -/
def disassemble (s : State) (address : Nat) : String :=
  match memRead address s, memRead (address + 1) s with
  | some b0, some b1 =>
    match decodeWord s.cfg.superEnabled (wordOfBytes b0 b1) with
    | .ok i => mnemonicString i
    | .error _ => s.cfg.badOpcodeMarker
  | _, _ => s.cfg.badOpcodeMarker

/-- `disassemble_current()`. -/
def disassembleCurrent (s : State) : String := disassemble s s.pc.toNat

end Sys2Proof.Machine
end

