-- ==== Sys2Proof/Machine/Result.lean ====
section
/-! DEFINITION. The three-valued result of a step and the state it leaves (spec/40_step_cycle.md R126,
spec/60_exceptions.md R276), and where a run ends (spec/70_reset_and_hazards.md R333). The result is an output: it is
stored nowhere (spec/10_state.md R43), so it is read off the step beside the state. -/

namespace Sys2Proof.Machine

/-- `StepResult` (R126). -/
inductive StepResult where
  | continue
  | halt
  | fault (code : FaultCode)
  deriving DecidableEq, Repr

/-- The result of an instruction that completed: `Halt` for `HALT` and `EXIT`, else `Continue`
(R126, spec/41_class0_system.md R141, R147). -/
def resultOf : Instr → StepResult
  | .halt | .exit _ => .halt
  | .cls _ | .ret _ | .scd _ _ | .scr _ | .scl _ | .low _ | .high _ | .sys _
  | .jp _ | .call _ | .seKk _ _ | .sneKk _ _ | .seXy _ _ | .ldKk _ _ | .addKk _ _
  | .ldXy _ _ | .or _ _ | .and _ _ | .xor _ _ | .addXy _ _ | .sub _ _ | .shr _ _ | .subn _ _ | .shl _ _
  | .sneXy _ _ | .ldI _ | .jpV0 _ | .rnd _ _ | .drw _ _ _ | .skp _ | .sknp _
  | .ldXDt _ | .ldXK _ | .ldDtX _ | .ldStX _ | .addIX _ | .ldFX _ | .ldBX _
  | .ldMemX _ | .ldXMem _ | .ldRX _ | .ldXR _ => .continue

/-- The result of a step that answered a next state: a key-wait check continues, an instruction says for itself. -/
def completedResult (s : State) : StepResult :=
  if s.waiting then .continue
  else
    match fetchDecode s with
    | .ok (i, _) => resultOf i
    | .error f => .fault f.code

/-- What `step` returns to the host (R126). No arm of `exec` refuses, so the last line is never reached. -/
def stepResult (s : State) : StepResult :=
  match step s with
  | .next _ => completedResult s
  | .fault f => .fault f.code
  | .refused _ => .continue

/-- The state an answer leaves, whatever the result: a fault leaves the state of R276, from which the host may go on. -/
def stateOf (o : Out) (s : State) : State :=
  match o with
  | .next t => t
  | .fault f => resume f
  | .refused _ => s

/-- The state a step leaves. -/
def stateAfter (s : State) : State := stateOf (step s) s

/-- `step(rnd)` with its input given (R120, spec/00_scope.md R9): `step` is this, with the next free draw for `rnd`. -/
def stepWith (rnd : Byte) (s : State) : Out :=
  if s.waiting then .next (keyWaitCheck s)
  else
    match fetchDecode s with
    | .error f => .fault f
    | .ok (i, s') =>
      match i with
      | .rnd x kk => .next (randomInto rnd x kk s')
      | i => exec i s'

/-- A run (R333): step until the first result that is not `Continue`, at most `fuel` times; the last result and the
state it left. -/
def runToEnd : Nat → State → StepResult × State
  | 0, s => (.continue, s)
  | fuel + 1, s =>
    match stepResult s with
    | .continue => runToEnd fuel (stateAfter s)
    | r => (r, stateAfter s)

end Sys2Proof.Machine
end

