-- ==== Sys2Proof/Machine/HostOps.lean ====
section
/-! DEFINITION. The operations the host issues besides `step` (spec/00_scope.md R5): `reset`, `loadProgram`
(spec/70_reset_and_hazards.md R320, R326), `tick`, `setKey`, `isKey` and the read accessors
(spec/60_exceptions.md R285, R288 to R290, R293). -/

namespace Sys2Proof.Machine

/-- `reset(clearMemory)` (R320). An unlisted address reads as its reset contents, so clearing memory and rewriting the
font empties the list, and rewriting the font alone drops the cells at 0 to 79. `R` and the configuration are kept. -/
def hostReset (clearMemory : Bool) (s : State) : State :=
  { s with
    mem := if clearMemory then [] else s.mem.filter fun c => c.1 ≥ 80
    V := Vector.replicate 16 0
    I := 0
    DT := 0
    ST := 0
    SP := 0
    stack := Vector.replicate 16 0
    key := Vector.replicate 16 false
    latchValid := false
    latchKey := 0
    waiting := false
    waitReg := 0
    fbLo := blankFrame
    fbHi := blankFrame
    highRes := false
    pc := 0x200 }

/-- A core as it stands after its first `reset(true)`, for any content of the R bank at creation and any configuration:
the arbitrary launch inputs of spec/10_state.md R28, R45 (notes/assumptions/2.md). -/
def State.launch (cfg : Config) (bank : Vector Byte 16) : State := { State.reset with cfg := cfg, R := bank }

/-- `loadProgram(bytes)` (R326): at most 0xE00 bytes from 0x200 up; the rest are dropped (R327). -/
def loadProgram (bytes : List Byte) (s : State) : State := s.poke 0x200 (bytes.take 0xE00)

/-- `tick()` (R285): both timers, floored at 0. -/
def tick (s : State) : State :=
  { s with
    DT := if s.DT = 0 then 0 else s.DT - 1
    ST := if s.ST = 0 then 0 else s.ST - 1 }

/-- `setKey` for an index in range (R288): the latch records only released to pressed transitions. -/
def pressKey (i : Nib) (pressed : Bool) (s : State) : State :=
  let latches := pressed && !s.key[i]
  { s with
    latchValid := if latches then true else s.latchValid
    latchKey := if latches then i else s.latchKey
    key := s.key.set i pressed }

/-- `setKey(index, pressed)`: an index of 16 or more is refused with `OutOfRangeAccess` (R289). -/
def setKey (index : Nat) (pressed : Bool) (s : State) : Except FaultCode State :=
  if h : index < 16 then .ok (pressKey ⟨index, h⟩ pressed s) else .error .outOfRangeAccess

/-- `isKey(index)` (R290, R289). -/
def isKey (index : Nat) (s : State) : Except FaultCode Bool :=
  match s.key[index]? with
  | some b => .ok b
  | none => .error .outOfRangeAccess

/-! ## Read accessors (R293) -/

/-- `PC`. -/
def readPC (s : State) : Word := s.pc

/-- `SP`. -/
def readSP (s : State) : BitVec 5 := s.SP

/-- `I`. -/
def readI (s : State) : Word := s.I

/-- `DT`. -/
def readDT (s : State) : Byte := s.DT

/-- `ST`. -/
def readST (s : State) : Byte := s.ST

/-- `V(i)`: refused for `i >= 16`. -/
def readV (i : Nat) (s : State) : Except FaultCode Byte :=
  match s.V[i]? with
  | some b => .ok b
  | none => .error .outOfRangeAccess

/-- `mem(a)`: refused for `a > 0xFFF`. -/
def readMem (a : Nat) (s : State) : Except FaultCode Byte :=
  match memRead a s with
  | some b => .ok b
  | none => .error .outOfRangeAccess

/-- `screenWidth()`. -/
def screenWidth (s : State) : Nat := s.width

/-- `screenHeight()`. -/
def screenHeight (s : State) : Nat := s.height

/-- `pixelAt(p)` of the active framebuffer: refused for `p >= W*H`. -/
def pixelAt (p : Nat) (s : State) : Except FaultCode Bool :=
  if p < s.width * s.height then .ok (s.pixel p) else .error .outOfRangeAccess

/-! ## The host's operations as one sequence (R5, spec/20_memory.md R70) -/

/-- The operations that may change state. -/
inductive HostOp where
  | reset (clearMemory : Bool)
  | loadProgram (bytes : List Byte)
  | step (rnd : Byte)
  | tick
  | setKey (index : Nat) (pressed : Bool)
  deriving DecidableEq, Repr

/-- The state an operation leaves; a refused `setKey` leaves it as it was (R289). -/
def HostOp.apply : HostOp → State → State
  | .reset c, s => hostReset c s
  | .loadProgram bs, s => Sys2Proof.Machine.loadProgram bs s
  | .step rnd, s => stateOf (stepWith rnd s) s
  | .tick, s => Sys2Proof.Machine.tick s
  | .setKey i p, s =>
    match Sys2Proof.Machine.setKey i p s with
    | .ok t => t
    | .error _ => s

/-- A total order of operations, each seeing the state the one before it left (R70). -/
def applyAll (ops : List HostOp) (s : State) : State := ops.foldl (fun t op => op.apply t) s

end Sys2Proof.Machine
end

