-- ==== Sys2Proof/Safety.lean ====
section
/-! DEFINITION. The legal states of the core, and what a safe run is: the terms the claims use. -/

namespace Sys2Proof.Machine

/-- The stack invariant: depth at most 16 (spec/10_state.md R32), and every live entry a return address, which `CALL`
pushed: even and in 0x202..0xFFE (spec/41_class0_system.md R143). -/
def State.stackOk (s : State) : Prop :=
  s.SP.toNat ≤ 16 ∧ ∀ j, j < s.SP.toNat → legalPc (s.stack.getD j 0).toNat ∧ 0x202 ≤ (s.stack.getD j 0).toNat

/-- A legal state: `pc` even and in 0x200..0xFFE (R30), `I` in 0..0xFFF (R25), the stack invariant, `highRes` only with
`superEnabled` (R36), and memory in its canonical form inside the 4096 bytes (R34). -/
structure State.Inv (s : State) : Prop where
  pc : legalPc s.pc.toNat
  index : s.I.toNat ≤ 0xFFF
  stack : s.stackOk
  gate : s.highRes = true → s.cfg.superEnabled = true
  mem : Memory.wf s.cfg s.mem

/-! ## Safe runs -/

/-- A safe step: it answers a next state. -/
def State.stepSafe (s : State) : Prop := ∃ t, step s = .next t

/-- A safe run of `k` steps: none of them faults. -/
def State.runSafe (s : State) : Nat → Prop
  | 0 => True
  | k + 1 => ∃ t, step s = .next t ∧ t.runSafe k

/-! ## When an instruction faults (spec/60_exceptions.md R274) -/

/-- The addresses `pc` may not take (spec/10_state.md R31). -/
abbrev badTarget (t : Nat) : Prop := t < 0x200 ∨ t > 0xFFE ∨ t % 2 = 1

/-- R274's table of the cases of `OutOfRangeAccess`, for an instruction about to run on `s` (`pc` already advanced). -/
def outOfRangeCase (s : State) : Instr → Prop
  | .sys nnn | .jp nnn => badTarget nnn.toNat
  | .jpV0 nnn => badTarget (nnn.toNat + (s.getV 0).toNat)
  | .call nnn => s.SP.toNat < 16 ∧ badTarget nnn.toNat
  | .seKk x kk => s.getV x = kk ∧ badTarget (s.pc.toNat + 2)
  | .sneKk x kk => s.getV x ≠ kk ∧ badTarget (s.pc.toNat + 2)
  | .seXy x y => s.getV x = s.getV y ∧ badTarget (s.pc.toNat + 2)
  | .sneXy x y => s.getV x ≠ s.getV y ∧ badTarget (s.pc.toNat + 2)
  | .skp x => (s.getV x).toNat > 15 ∨ s.key[(s.getV x).toNat]? = some true ∧ badTarget (s.pc.toNat + 2)
  | .sknp x => (s.getV x).toNat > 15 ∨ s.key[(s.getV x).toNat]? = some false ∧ badTarget (s.pc.toNat + 2)
  | .drw _ _ n => n.val ≠ 0 ∧ s.I.toNat + (n.val - 1) > 0xFFF
  | .ldXMem x => s.I.toNat + x.val > 0xFFF
  | .ldBX _ => s.I.toNat < 0x200 ∨ s.I.toNat + 2 > 0xFFF
  | .ldMemX x => s.I.toNat < 0x200 ∨ s.I.toNat + x.val > 0xFFF
  | .halt | .cls _ | .ret _ | .scd _ _ | .scr _ | .scl _ | .exit _ | .low _ | .high _ | .ldKk _ _ | .addKk _ _
  | .ldXy _ _ | .or _ _ | .and _ _ | .xor _ _ | .addXy _ _ | .sub _ _ | .shr _ _ | .subn _ _ | .shl _ _
  | .ldI _ | .rnd _ _ | .ldXDt _ | .ldXK _ | .ldDtX _ | .ldStX _ | .addIX _ | .ldFX _ | .ldRX _ | .ldXR _ => False

/-- R270's four codes, each with the condition R271 to R274 give it for an instruction about to run on `s`. -/
def faultCase (s : State) (i : Instr) : FaultCode → Prop
  | .invalidOpcode => isSuper i = true ∧ s.cfg.superEnabled = false
  | .stackOverflow => ∃ nnn, i = .call nnn ∧ s.SP.toNat ≥ 16
  | .stackUnderflow => ∃ ign, i = .ret ign ∧ s.SP = 0
  | .outOfRangeAccess => outOfRangeCase s i

/-! ## What an instruction writes -/

/-- The general registers an instruction may write (spec/10_state.md R22, the rows "write"). -/
def writesV : Instr → Nib → Prop
  | .ldKk x _, r | .addKk x _, r | .ldXy x _, r | .or x _, r | .and x _, r | .xor x _, r | .rnd x _, r
  | .ldXDt x, r => r = x
  | .addXy x _, r | .sub x _, r | .shr x _, r | .subn x _, r | .shl x _, r => r = x ∨ r = 15
  | .drw _ _ _, r | .addIX _, r => r = 15
  | .ldXMem x, r | .ldXR x, r => r ≤ x
  | .halt, _ | .cls _, _ | .ret _, _ | .scd _ _, _ | .scr _, _ | .scl _, _ | .exit _, _ | .low _, _ | .high _, _
  | .sys _, _ | .jp _, _ | .call _, _ | .seKk _ _, _ | .sneKk _ _, _ | .seXy _ _, _ | .sneXy _ _, _ | .ldI _, _
  | .jpV0 _, _ | .skp _, _ | .sknp _, _ | .ldXK _, _ | .ldDtX _, _ | .ldStX _, _ | .ldFX _, _ | .ldBX _, _
  | .ldMemX _, _ | .ldRX _, _ => False

/-- The answer completes, writes `b` to `V[x]` and nothing else. -/
def writesRegister (o : Out) (s : State) (x : Nib) (b : Byte) : Prop :=
  ∃ t, o = .next t ∧ t = { s with V := t.V } ∧ ∀ r, t.getV r = if r = x then b else s.getV r

/-- The answer completes, writes `b` to `V[x]` and then the flag to `VF` (spec/10_state.md R24), and nothing else. -/
def writesResultAndFlag (o : Out) (s : State) (x : Nib) (b : Byte) (flag : Bool) : Prop :=
  ∃ t, o = .next t ∧ t = { s with V := t.V } ∧
    ∀ r, t.getV r = if r = 15 then (if flag then 1 else 0) else if r = x then b else s.getV r

/-- The answer is the checked write of a target to `pc` (spec/10_state.md R31) and nothing else: it completes exactly
when the target is legal, and otherwise is the fault, which leaves `s`. -/
def jumpsTo (o : Out) (s : State) (t : Nat) : Prop :=
  (¬badTarget t → ∃ u, o = .next u ∧ u = { s with pc := u.pc } ∧ u.pc.toNat = t) ∧
  (badTarget t → o = .fault (.outOfRangeAccess s))

/-- The answer is a skip exactly when the condition holds (spec/43_skip.md R174), and nothing else. -/
def skipsWhen (o : Out) (s : State) (c : Prop) : Prop :=
  (c → jumpsTo o s (s.pc.toNat + 2)) ∧ (¬c → o = .next s)

/-- A sprite bit of the draw lands on flat index `p` (spec/46_display_draw.md R210, R216): row `r`, bit `b` of the bytes
at `I` goes to `((V[y] + r) * W + (V[x] + b)) mod (W * H)`. -/
def spriteCovers (s : State) (x y n : Nib) (p : Nat) : Prop :=
  ∃ r b, r < n.val ∧ b < 8 ∧ (s.peek (s.I.toNat + r)).getLsbD (7 - b) = true ∧
    p = (((s.getV y).toNat + r) * s.width + ((s.getV x).toNat + b)) % (s.width * s.height)

end Sys2Proof.Machine
end

