-- ==== Sys2Proof/Certificates/Slice0/Obligations.lean ====
section
/-! DEFINITION. The statements for the provers. Each docstring names the rule of spec/ it formalises; where it rests on
a choice of the spec's own (a decision D<n>) or of this model (a log entry), it says so. -/

open Sys2Proof Sys2Proof.Machine

/-! ## Encoding -/

/-- R91, R92, R94, R100: decoding the word of a well-formed instruction gives it back, from the word and from its two
bytes in front of any others; with the gate off, exactly the Super-CHIP words are rejected. The numeric codes are the
spec's own (D12, G1). -/
def Obligations.DecodeOfEncodeIsIdentity : Prop :=
  ∀ i : Instr, wellFormed i = true →
    decodeWord true (encode i) = .ok i ∧
    decodeWord false (encode i) = (if isSuper i = true then .error .superDisabled else .ok i) ∧
    ∀ rest, decodeBytes true (bytesOfWord (encode i) ++ rest) = .ok (i, rest)

/-- R90, R91: no bit of a word is dropped: whatever decodes, ignored nibbles included, encodes back to the same word, is
well-formed, and is a Super-CHIP instruction only with the gate on. -/
def Obligations.EncodeOfDecodedIsIdentity : Prop :=
  ∀ (g : Bool) (w : Word) (i : Instr), decodeWord g w = .ok i →
    encode i = w ∧ wellFormed i = true ∧ (isSuper i = true → g = true)

/-- R99: the complete list of invalid words, row by row (the rows of classes 5 and 9 are D11). -/
def Obligations.InvalidWordsAreExactlyTheListed : Prop :=
  ∀ (g : Bool) (w : Word),
    (∃ e, decodeWord g w = .error e) ↔
      (w.toNat / 0x1000 = 0x5 ∧ w.toNat % 0x10 ≠ 0) ∨
      (w.toNat / 0x1000 = 0x8 ∧ 8 ≤ w.toNat % 0x10 ∧ w.toNat % 0x10 ≠ 0xE) ∨
      (w.toNat / 0x1000 = 0x9 ∧ w.toNat % 0x10 ≠ 0) ∨
      (w.toNat / 0x1000 = 0xE ∧ w.toNat % 0x100 ∉ [0x9E, 0xA1]) ∨
      (w.toNat / 0x1000 = 0xF ∧
        w.toNat % 0x100 ∉ [0x07, 0x0A, 0x15, 0x18, 0x1E, 0x29, 0x33, 0x55, 0x65, 0x75, 0x85]) ∨
      (g = false ∧ w.toNat / 0x1000 = 0x0 ∧
        (w.toNat / 0x10 % 0x10 = 0xC ∨ w.toNat % 0x100 ∈ [0xFB, 0xFC, 0xFD, 0xFE, 0xFF])) ∨
      (g = false ∧ w.toNat / 0x1000 = 0xF ∧ w.toNat % 0x100 ∈ [0x75, 0x85])

/-- R94: the decode procedure and the rows of the opcode table (`w & mask = match`, the most one bits win) are the same
function: the row selected for a word is the row of the instruction decoded from it, a row marked Super-CHIP is
rejected with the gate off, and a word no row matches is rejected. -/
def Obligations.DecodeAgreesWithOpcodeTable : Prop :=
  ∀ (g : Bool) (w : Word),
    match selectRow w.toNat opcodeTable with
    | none => ∃ e, decodeWord g w = .error e
    | some r =>
      (∃ i, decodeWord true w = .ok i ∧ tableMnemonic i = r.mnemonic ∧ isSuper i = r.isSuper) ∧
      (decodeWord g w = if r.isSuper = true ∧ g = false then .error .superDisabled else decodeWord true w)

/-- R95, R96, R103: the words the source itself gives (`6A02`, `3002`, `1200`, `2210`, `00EE`, `0000`, `732A`, `D125`)
decode to the instructions it gives for them. -/
def Obligations.SourceWordsDecode : Prop :=
  decodeWord true 0x6A02 = .ok (.ldKk 0xA 0x02) ∧ decodeWord true 0x3002 = .ok (.seKk 0x0 0x02) ∧
  decodeWord true 0x1200 = .ok (.jp 0x200) ∧ decodeWord true 0x2210 = .ok (.call 0x210) ∧
  decodeWord true 0x00EE = .ok (.ret 0x0) ∧ decodeWord true 0x0000 = .ok .halt ∧
  decodeWord true 0x732A = .ok (.addKk 0x3 0x2A) ∧ decodeWord true 0xD125 = .ok (.drw 0x1 0x2 0x5)

/-! ## The step -/

/-- R120, R122, R123, R125: when no key-wait is pending and the two bytes at `pc` are the word of a well-formed
instruction the gate admits, the step is that instruction's meaning on the state with `pc` advanced by 2. -/
def Obligations.StepRunsTheDecodedInstruction : Prop :=
  ∀ (s : State) (i : Instr), s.waiting = false → legalPc s.pc.toNat = true → s.pc.toNat ≤ 0xFFC →
    wellFormed i = true → (isSuper i = true → s.cfg.superEnabled = true) →
    [s.peek s.pc.toNat, s.peek (s.pc.toNat + 1)] = bytesOfWord (encode i) →
    step s = exec i { s with pc := s.pc + 2 }

/-- R123 (its consequence at the top of memory, D8) and U10: at 0xFFE the advance fails, whatever the word; the fault
leaves the state as it was, and so does every further step, with any random bytes. -/
def Obligations.LastSlotNeverExecutes : Prop :=
  ∀ s : State, s.waiting = false → s.pc = 0xFFE →
    step s = .fault (.outOfRangeAccess s) ∧ ∀ bytes : List Byte, applyAll (bytes.map .step) s = s

/-- R271: `InvalidOpcode` is raised when the word does not decode, after the fetch and the `pc` advance and before any
effect; among those words is every Super-CHIP instruction when `superEnabled` is false. -/
def Obligations.InvalidOpcodeIsRaisedAfterTheAdvance : Prop :=
  ∀ s : State, s.waiting = false → legalPc s.pc.toNat = true → s.pc.toNat ≤ 0xFFC →
    ((∃ e, decodeWord s.cfg.superEnabled (wordOfBytes (s.peek s.pc.toNat) (s.peek (s.pc.toNat + 1))) = .error e) →
      step s = .fault (.invalidOpcode { s with pc := s.pc + 2 })) ∧
    (∀ i, isSuper i = true → s.cfg.superEnabled = false →
      wordOfBytes (s.peek s.pc.toNat) (s.peek (s.pc.toNat + 1)) = encode i →
      step s = .fault (.invalidOpcode { s with pc := s.pc + 2 }))

/-- R121, R291 (the latch is D15): while waiting, a step fetches nothing and leaves `pc`; without a latched press it
changes nothing at all; with one it writes the key's index to the recorded register and ends the wait. Either way the
result is `Continue`. -/
def Obligations.WaitingStepOnlyChecksTheLatch : Prop :=
  ∀ s : State, s.waiting = true →
    stepResult s = .continue ∧
    (s.latchValid = false → step s = .next s) ∧
    (s.latchValid = true → ∃ t, step s = .next t ∧
      t = { s with V := t.V, waiting := false, latchValid := false } ∧
      ∀ r, (t.getV r).toNat = if r = s.waitReg then s.latchKey.val else (s.getV r).toNat)

/-- R126, R141, R147 (D13): a step that runs an instruction returns `Halt` exactly when it was `HALT` or `EXIT` and
completed, `Fault(code)` exactly when a fault was raised, with that fault's code, and `Continue` otherwise. -/
def Obligations.StepResultIsHaltOnlyForHaltAndExit : Prop :=
  ∀ (s : State) (i : Instr), s.waiting = false → fetchDecode s = .ok (i, s.advanced) →
    (stepResult s = .halt ↔ (∃ t, step s = .next t) ∧ (i = .halt ∨ ∃ ign, i = .exit ign)) ∧
    (∀ c, stepResult s = .fault c ↔ ∃ f, step s = .fault f ∧ f.code = c)

/-- R9, R120: `step` is `step(rnd)` with the next free draw as its input: the two answer the same but for the model's
own count of draws, and where the instruction is not `RND` the input makes no difference. -/
def Obligations.StepIsStepWithAFreeDraw : Prop :=
  (∀ s : State, mapOut (fun t => { t with draws := 0 }) (step s) =
    mapOut (fun t => { t with draws := 0 }) (stepWith (Config.freeRnd s.draws) s)) ∧
  ∀ (s : State) (b : Byte), s.waiting = true ∨ (∀ x kk s', fetchDecode s ≠ .ok (.rnd x kk, s')) →
    stepWith b s = step s

/-- No step is refused: every instruction of the table has a meaning. -/
def Obligations.NoStepIsRefused : Prop :=
  ∀ (s : State) (r : Refusal), step s ≠ .refused r

/-! ## Faults -/

/-- R276 (D6), R279 (at 0xFFE: D8): a fault at the fetch advance (`pc = 0xFFE`) changes nothing; every other fault leaves `pc` at the
faulting instruction's address plus 2 and everything else as it was. -/
def Obligations.FaultLeavesOnlyTheAdvance : Prop :=
  ∀ (s : State) (f : Fault), legalPc s.pc.toNat = true → step s = .fault f →
    f.after = if s.pc = 0xFFE then s else { s with pc := s.pc + 2 }

/-- R270 to R274, R278 (odd targets are D7, key indexes D14, the order D27): an instruction raises each fault exactly in the cases of R274's table (and R271 to R273), leaving
the state it started from; and in no such case it completes. `stackOk` is the invariant of R32, R143. -/
def Obligations.FaultsExactlyInTheListedCases : Prop :=
  ∀ (s : State) (i : Instr), s.stackOk →
    (exec i s = .fault (.invalidOpcode s) ↔ faultCase s i .invalidOpcode) ∧
    (exec i s = .fault (.stackOverflow s) ↔ faultCase s i .stackOverflow) ∧
    (exec i s = .fault (.stackUnderflow s) ↔ faultCase s i .stackUnderflow) ∧
    (exec i s = .fault (.outOfRangeAccess s) ↔ faultCase s i .outOfRangeAccess) ∧
    ((∀ c, ¬faultCase s i c) → ∃ t, exec i s = .next t)

/-! ## Invariants -/

/-- R25, R30, R32, R36, R34 (that `pc` stays even rests on D7): every step from a legal state answers a legal state. -/
def Obligations.StepKeepsTheInvariant : Prop :=
  ∀ s t : State, s.Inv → step s = .next t → t.Inv

/-- The same for every operation of the host, `step` with any random byte and whatever its result included, in any
sequence (R5, R70, R276). -/
def Obligations.HostOperationsKeepTheInvariant : Prop :=
  ∀ (ops : List HostOp) (s : State), s.Inv → (applyAll ops s).Inv

/-- R44, R323: the state after reset is legal, with any configuration and any R bank; and a `reset` makes any state with
a canonical memory legal. -/
def Obligations.ResetIsLegal : Prop :=
  State.reset.Inv ∧ (∀ cfg bank, (State.launch cfg bank).Inv) ∧
  ∀ (c : Bool) (s : State), Memory.wf s.cfg s.mem → (hostReset c s).Inv

/-- R61, R65: no instruction changes a byte below 0x200, in any state with a canonical memory. -/
def Obligations.ProtectedMemoryIsNeverWritten : Prop :=
  ∀ (s : State) (a : Nat), Memory.wf s.cfg s.mem → a < 0x200 → (stateAfter s).peek a = s.peek a

/-- Who may write what (R22, R26, R28, R29, R32, R36, R39, R41, R127; that moves and bulk transfers write no flag and no
`I` is D22, D16): each piece of state changes only by the
instructions the spec names for it, and the key lines, the latched key and the configuration by none. -/
def Obligations.OnlyNamedInstructionsWrite : Prop :=
  ∀ (i : Instr) (s t : State), exec i s = .next t →
    (∀ r, ¬writesV i r → t.getV r = s.getV r) ∧
    (t.I ≠ s.I → (∃ nnn, i = .ldI nnn) ∨ (∃ x, i = .addIX x) ∨ ∃ x, i = .ldFX x) ∧
    (t.R ≠ s.R → ∃ x, i = .ldRX x) ∧
    (t.DT ≠ s.DT → ∃ x, i = .ldDtX x) ∧
    (t.ST ≠ s.ST → ∃ x, i = .ldStX x) ∧
    (t.stack ≠ s.stack → ∃ nnn, i = .call nnn) ∧
    (t.SP ≠ s.SP → (∃ nnn, i = .call nnn) ∨ ∃ ign, i = .ret ign) ∧
    (t.mem ≠ s.mem → (∃ x, i = .ldBX x) ∨ ∃ x, i = .ldMemX x) ∧
    (t.fbLo ≠ s.fbLo ∨ t.fbHi ≠ s.fbHi → (∃ ign, i = .cls ign) ∨ (∃ ign n, i = .scd ign n) ∨ (∃ ign, i = .scr ign) ∨
      (∃ ign, i = .scl ign) ∨ ∃ x y n, i = .drw x y n) ∧
    (t.highRes ≠ s.highRes → (∃ ign, i = .low ign) ∨ ∃ ign, i = .high ign) ∧
    (t.waiting ≠ s.waiting ∨ t.waitReg ≠ s.waitReg ∨ t.latchValid ≠ s.latchValid → ∃ x, i = .ldXK x) ∧
    (t.draws ≠ s.draws → ∃ x kk, i = .rnd x kk) ∧
    t.key = s.key ∧ t.latchKey = s.latchKey ∧ t.cfg = s.cfg

/-- R9, R29, R41: what no instruction reads does not influence it. Another sound timer, another latch and another count
of random draws change nothing else in the answer, except that `LD ST, Vx` writes the timer, `LD Vx, K` the latch and
`RND` takes the draw. -/
def Obligations.UnreadStateHasNoInfluence : Prop :=
  ∀ (i : Instr) (s : State),
    (∀ b : Byte, (∀ x, i ≠ .ldStX x) →
      exec i { s with ST := b } = mapOut (fun t => { t with ST := b }) (exec i s)) ∧
    (∀ (v : Bool) (k : Nib), (∀ x, i ≠ .ldXK x) →
      exec i { s with latchValid := v, latchKey := k } =
        mapOut (fun t => { t with latchValid := v, latchKey := k }) (exec i s)) ∧
    (∀ d : Nat, (∀ x kk, i ≠ .rnd x kk) →
      exec i { s with draws := d } = mapOut (fun t => { t with draws := d }) (exec i s))

/-- R21, R23: a flag is the byte 0 or 1 and never any other value. -/
def Obligations.FlagsAreZeroOrOne : Prop :=
  ∀ (s t : State) (x y n : Nib) (i : Instr),
    i ∈ [Instr.addXy x y, .sub x y, .subn x y, .shr x y, .shl x y, .drw x y n, .addIX x] →
    exec i s = .next t → t.getV 15 = 0 ∨ t.getV 15 = 1

/-! ## Class 0 -/

/-- R141, R147 to R149 (D13, D20): `HALT` and `EXIT` change no state, `LOW` and `HIGH` only `highRes`, so that the
width and height are 64 by 32 or 128 by 64 and both framebuffers keep their pixels; the last three need the gate, and
without it raise `InvalidOpcode`. -/
def Obligations.HaltExitLowHighEffects : Prop :=
  ∀ (s : State) (ign : Nib),
    exec .halt s = .next s ∧
    (s.cfg.superEnabled = true →
      exec (.exit ign) s = .next s ∧
      (∃ t, exec (.low ign) s = .next t ∧ t = { s with highRes := t.highRes } ∧ t.width = 64 ∧ t.height = 32 ∧
        ∀ p, t.pixel p = pixelOf s.fbLo p) ∧
      (∃ t, exec (.high ign) s = .next t ∧ t = { s with highRes := t.highRes } ∧ t.width = 128 ∧ t.height = 64 ∧
        ∀ p, t.pixel p = pixelOf s.fbHi p)) ∧
    (s.cfg.superEnabled = false →
      ∀ i ∈ [Instr.exit ign, .low ign, .high ign], exec i s = .fault (.invalidOpcode s))

/-- R142, R211: `CLS` zeroes every pixel of both framebuffers, whichever is active and whatever the gate, and changes
nothing else. -/
def Obligations.ClearScreenClearsBothFramebuffers : Prop :=
  ∀ (s : State) (ign : Nib), ∃ t, exec (.cls ign) s = .next t ∧ t = { s with fbLo := t.fbLo, fbHi := t.fbHi } ∧
    (∀ p, p < 2048 → pixelOf t.fbLo p = false) ∧ (∀ p, p < 8192 → pixelOf t.fbHi p = false)

/-- R143, R273 (what `SP` counts is D25): `RET` on an empty stack raises `StackUnderflow` and changes nothing; otherwise it goes to the top entry
and lowers `SP`, the entries staying in place. `stackOk` is the invariant of R32, R143. -/
def Obligations.ReturnPopsTheStack : Prop :=
  ∀ (s : State) (ign : Nib), s.stackOk →
    (s.SP = 0 → exec (.ret ign) s = .fault (.stackUnderflow s)) ∧
    (s.SP ≠ 0 → ∃ t, exec (.ret ign) s = .next t ∧ t = { s with pc := t.pc, SP := t.SP } ∧
      t.pc = s.stack.getD (s.SP.toNat - 1) 0 ∧ t.SP.toNat = s.SP.toNat - 1)

/-- R144, R212 (the sub-code is G1): `SCD n` moves every pixel of the active framebuffer down `n` rows, rows counted modulo the height, and
changes nothing else: the inactive framebuffer among it. -/
def Obligations.ScrollDownMovesRows : Prop :=
  ∀ (s : State) (ign n : Nib), s.cfg.superEnabled = true →
    ∃ t, exec (.scd ign n) s = .next t ∧
      t = (if s.highRes then { s with fbHi := t.fbHi } else { s with fbLo := t.fbLo }) ∧
      ∀ r c, r < s.height → c < s.width →
        t.pixel ((r + n.val) % s.height * s.width + c) = s.pixel (r * s.width + c)

/-- R145, R146, R213, R214 (the amounts are parameters, D19): `SCR` and `SCL` rotate every row of the active
framebuffer by the configured amount within itself, right or left, and change nothing else. -/
def Obligations.ScrollRightAndLeftRotateRows : Prop :=
  ∀ (s : State) (ign : Nib) (k : Nat), s.cfg.superEnabled = true →
    k = (if s.highRes then s.cfg.scrollAmountHi else s.cfg.scrollAmountLo) →
    (∃ t, exec (.scr ign) s = .next t ∧
      t = (if s.highRes then { s with fbHi := t.fbHi } else { s with fbLo := t.fbLo }) ∧
      ∀ r c, r < s.height → c < s.width →
        t.pixel (r * s.width + (c + k) % s.width) = s.pixel (r * s.width + c)) ∧
    (∃ t, exec (.scl ign) s = .next t ∧
      t = (if s.highRes then { s with fbHi := t.fbHi } else { s with fbLo := t.fbLo }) ∧
      ∀ r c, r < s.height → c < s.width →
        t.pixel (r * s.width + (c + s.width - k % s.width) % s.width) = s.pixel (r * s.width + c))

/-- R212: `ScrollDown(n)` on the active framebuffer, for every natural `n`: each old row lands `n` rows lower, rows
counted modulo the height; the inactive framebuffer is untouched; `n = 0` is the identity; and the number of lit pixels
never changes. -/
def Obligations.ScrollDownIsToroidal : Prop :=
  ∀ (s t : State) (n : Nat), t = s.onActive (scrollDown n) →
    t = (if s.highRes then { s with fbHi := t.fbHi } else { s with fbLo := t.fbLo }) ∧
    (∀ r c, r < s.height → c < s.width →
      t.pixel ((r + n) % s.height * s.width + c) = s.pixel (r * s.width + c)) ∧
    (n = 0 → t = s) ∧
    ((Finset.range (s.width * s.height)).filter fun p => t.pixel p = true).card =
      ((Finset.range (s.width * s.height)).filter fun p => s.pixel p = true).card

/-- R213, R214: `ScrollRight(k)` and `ScrollLeft(k)` on the active framebuffer, for every natural `k`: each row rotates by
`k` columns within itself, the inactive framebuffer is untouched, and each undoes the other. -/
def Obligations.ScrollLeftUndoesScrollRight : Prop :=
  ∀ (s t u : State) (k : Nat), t = s.onActive (scrollRight k) → u = s.onActive (scrollLeft k) →
    t = (if s.highRes then { s with fbHi := t.fbHi } else { s with fbLo := t.fbLo }) ∧
    u = (if s.highRes then { s with fbHi := u.fbHi } else { s with fbLo := u.fbLo }) ∧
    (∀ r c, r < s.height → c < s.width →
      t.pixel (r * s.width + (c + k) % s.width) = s.pixel (r * s.width + c) ∧
      u.pixel (r * s.width + (c + s.width - k % s.width) % s.width) = s.pixel (r * s.width + c)) ∧
    t.onActive (scrollLeft k) = s ∧ u.onActive (scrollRight k) = s

/-! ## Flow and skips -/

/-- R150, R160, R161 (evenness is D7, the unmasked sum D36): `SYS`, `JP` and `JP V0` write their target to `pc` through
the checked write of R31 and change nothing else. -/
def Obligations.JumpsWriteOnlyThePc : Prop :=
  ∀ (s : State) (nnn : Addr),
    jumpsTo (exec (.sys nnn) s) s nnn.toNat ∧
    jumpsTo (exec (.jp nnn) s) s nnn.toNat ∧
    jumpsTo (exec (.jpV0 nnn) s) s (nnn.toNat + (s.getV 0).toNat)

/-- R162, R272 (D7, D25; the order of the checks is D27): `CALL` with sixteen calls outstanding raises `StackOverflow`; else with a bad target
`OutOfRangeAccess`; else it pushes the address after the `CALL`, raises `SP` by one, and jumps. -/
def Obligations.CallPushesTheReturnAddress : Prop :=
  ∀ (s : State) (nnn : Addr),
    (16 ≤ s.SP.toNat → exec (.call nnn) s = .fault (.stackOverflow s)) ∧
    (s.SP.toNat < 16 → badTarget nnn.toNat → exec (.call nnn) s = .fault (.outOfRangeAccess s)) ∧
    (s.SP.toNat < 16 → ¬badTarget nnn.toNat → ∃ t, exec (.call nnn) s = .next t ∧
      t = { s with pc := t.pc, SP := t.SP, stack := t.stack } ∧
      t.pc.toNat = nnn.toNat ∧ t.SP.toNat = s.SP.toNat + 1 ∧
      ∀ j, j < 16 → t.stack.getD j 0 = if j = s.SP.toNat then s.pc else s.stack.getD j 0)

/-- R143, R162, S9: a `RET` run after a `CALL`, wherever the called code has left `pc`, comes back to the address after
the `CALL` with the depth it had. -/
def Obligations.ReturnUndoesCall : Prop :=
  ∀ (s t : State) (nnn : Addr) (ign : Nib) (p : Word), legalPc s.pc.toNat = true → exec (.call nnn) s = .next t →
    ∃ u, exec (.ret ign) { t with pc := p } = .next u ∧ u = { s with stack := t.stack }

/-- R170: `SE Vx, kk` (word `3xkk`) skips exactly when `V[x] = kk`. -/
def Obligations.SkipIfEqualImmediate : Prop :=
  ∀ (s : State) (x : Nib) (kk : Byte) (g : Bool),
    decodeWord g (BitVec.ofNat 16 (0x3000 + x.val * 0x100 + kk.toNat)) = .ok (.seKk x kk) ∧
    skipsWhen (exec (.seKk x kk) s) s (s.getV x = kk)

/-- R171 to R173 (that these classes test what they test is G6, the zero nibble D11): the other register skips. -/
def Obligations.RegisterSkips : Prop :=
  ∀ (s : State) (x y : Nib) (kk : Byte),
    skipsWhen (exec (.sneKk x kk) s) s (s.getV x ≠ kk) ∧
    skipsWhen (exec (.seXy x y) s) s (s.getV x = s.getV y) ∧
    skipsWhen (exec (.sneXy x y) s) s (s.getV x ≠ s.getV y)

/-- R230, R231 (the fault for an index above 15 is D14): `SKP` and `SKNP` look at the key whose index is the value of
`V[x]`. -/
def Obligations.KeySkips : Prop :=
  ∀ (s : State) (x : Nib),
    (∀ h : (s.getV x).toNat < 16,
      skipsWhen (exec (.skp x) s) s (s.key[(s.getV x).toNat] = true) ∧
      skipsWhen (exec (.sknp x) s) s (s.key[(s.getV x).toNat] = false)) ∧
    (16 ≤ (s.getV x).toNat →
      exec (.skp x) s = .fault (.outOfRangeAccess s) ∧ exec (.sknp x) s = .fault (.outOfRangeAccess s))

/-! ## Loads, ALU, index, random -/

/-- R180: `LD Vx, kk` (word `6xkk`) writes `kk` to `V[x]`, `VF` like any other, and nothing else. -/
def Obligations.LoadImmediate : Prop :=
  ∀ (s : State) (x : Nib) (kk : Byte) (g : Bool),
    decodeWord g (BitVec.ofNat 16 (0x6000 + x.val * 0x100 + kk.toNat)) = .ok (.ldKk x kk) ∧
    writesRegister (exec (.ldKk x kk) s) s x kk

/-- R181: `ADD Vx, kk` (word `7xkk`) adds modulo 256, with no flag. -/
def Obligations.AddImmediate : Prop :=
  ∀ (s : State) (x : Nib) (kk : Byte) (g : Bool),
    decodeWord g (BitVec.ofNat 16 (0x7000 + x.val * 0x100 + kk.toNat)) = .ok (.addKk x kk) ∧
    ∃ b : Byte, b.toNat = ((s.getV x).toNat + kk.toNat) % 256 ∧ writesRegister (exec (.addKk x kk) s) s x b

/-- R182 to R185 (D22: no flag): move and the bitwise operations, bit by bit. -/
def Obligations.MoveAndBitwise : Prop :=
  ∀ (s : State) (x y : Nib),
    writesRegister (exec (.ldXy x y) s) s x (s.getV y) ∧
    (∃ b : Byte, (∀ k, k < 8 → b.getLsbD k = ((s.getV x).getLsbD k || (s.getV y).getLsbD k)) ∧
      writesRegister (exec (.or x y) s) s x b) ∧
    (∃ b : Byte, (∀ k, k < 8 → b.getLsbD k = ((s.getV x).getLsbD k && (s.getV y).getLsbD k)) ∧
      writesRegister (exec (.and x y) s) s x b) ∧
    (∃ b : Byte, (∀ k, k < 8 → b.getLsbD k = ((s.getV x).getLsbD k ^^ (s.getV y).getLsbD k)) ∧
      writesRegister (exec (.xor x y) s) s x b)

/-- R186, S1 (the flag written last is D23): the sum modulo 256, then the carry. -/
def Obligations.AddWithCarry : Prop :=
  ∀ (s : State) (x y : Nib), ∃ b : Byte, b.toNat = ((s.getV x).toNat + (s.getV y).toNat) % 256 ∧
    writesResultAndFlag (exec (.addXy x y) s) s x b (decide ((s.getV x).toNat + (s.getV y).toNat > 255))

/-- R187, R189, S2 (D23): the difference modulo 256, then not borrow; `SUBN` with the operands exchanged. -/
def Obligations.SubtractWithNotBorrow : Prop :=
  ∀ (s : State) (x y : Nib) (a b : Nat), a = (s.getV x).toNat → b = (s.getV y).toNat →
    (∃ d : Byte, d.toNat = (if a < b then a + 256 - b else a - b) ∧
      writesResultAndFlag (exec (.sub x y) s) s x d (decide (a ≥ b))) ∧
    (∃ d : Byte, d.toNat = (if b < a then b + 256 - a else b - a) ∧
      writesResultAndFlag (exec (.subn x y) s) s x d (decide (b ≥ a)))

/-- R188, R190, S3 (D23): the shifts of `V[x]` by one bit, then the bit shifted out; the `y` nibble has no effect. -/
def Obligations.ShiftsIgnoreTheSecondRegister : Prop :=
  ∀ (s : State) (x y : Nib) (a : Nat), a = (s.getV x).toNat →
    (∃ d : Byte, d.toNat = a / 2 ∧ writesResultAndFlag (exec (.shr x y) s) s x d (decide (a % 2 = 1))) ∧
    (∃ d : Byte, d.toNat = a * 2 % 256 ∧ writesResultAndFlag (exec (.shl x y) s) s x d (decide (a ≥ 128)))

/-- R200: `LD I, nnn` (word `Annn`) makes `I` the address, with no check and no flag. -/
def Obligations.LoadIndex : Prop :=
  ∀ (s : State) (nnn : Addr) (g : Bool),
    decodeWord g (BitVec.ofNat 16 (0xA000 + nnn.toNat)) = .ok (.ldI nnn) ∧
    ∃ t, exec (.ldI nnn) s = .next t ∧ t = { s with I := t.I } ∧ t.I.toNat = nnn.toNat

/-- R244, S4 (masking is D9, the flag on every execution D24): the sum is masked to 12 bits and `VF` says whether it
exceeded 0xFFF. With R245 (D21, D31): `LD F, Vx` makes `I` five times the whole byte, with no flag. -/
def Obligations.IndexArithmetic : Prop :=
  ∀ (s : State) (x : Nib),
    (∃ t, exec (.addIX x) s = .next t ∧ t = { s with I := t.I, V := t.V } ∧
      t.I.toNat = (s.I.toNat + (s.getV x).toNat) % 0x1000 ∧
      ∀ r, t.getV r = if r = 15 then (if s.I.toNat + (s.getV x).toNat > 0xFFF then 1 else 0) else s.getV r) ∧
    (∃ t, exec (.ldFX x) s = .next t ∧ t = { s with I := t.I } ∧ t.I.toNat = (s.getV x).toNat * 5)

/-- R201 (the draw is the free value of notes/assumptions/1.md): `RND Vx, kk` writes the next free draw masked by `kk`,
takes one draw, and changes nothing else; no bit outside `kk` is ever set. -/
def Obligations.RandomIsMasked : Prop :=
  ∀ (s : State) (x : Nib) (kk : Byte), ∃ t, exec (.rnd x kk) s = .next t ∧
    t = { s with V := t.V, draws := s.draws + 1 } ∧
    (∀ r, t.getV r = if r = x then Config.freeRnd s.draws &&& kk else s.getV r) ∧
    ∀ k, kk.getLsbD k = false → (t.getV x).getLsbD k = false

/-! ## Draw -/

/-- R210, R215, R216, R217 (the position formula is D18): `DRW` faults exactly when a sprite row's address is above
0xFFF; otherwise it inverts exactly the pixels of the active framebuffer a sprite bit lands on, sets `VF` to 1 when one
of them was lit and to 0 otherwise, and changes nothing else. -/
def Obligations.DrawInvertsTheCoveredPixels : Prop :=
  ∀ (s : State) (x y n : Nib),
    (n ≠ 0 ∧ s.I.toNat + (n.val - 1) > 0xFFF → exec (.drw x y n) s = .fault (.outOfRangeAccess s)) ∧
    (n = 0 ∨ s.I.toNat + (n.val - 1) ≤ 0xFFF → ∃ t, exec (.drw x y n) s = .next t ∧
      t = (if s.highRes then { s with V := t.V, fbHi := t.fbHi } else { s with V := t.V, fbLo := t.fbLo }) ∧
      (∀ p, p < s.width * s.height →
        ((spriteCovers s x y n p → t.pixel p = !s.pixel p) ∧ (¬spriteCovers s x y n p → t.pixel p = s.pixel p))) ∧
      (∀ r, r ≠ 15 → t.getV r = s.getV r) ∧
      ((∃ p, spriteCovers s x y n p ∧ s.pixel p = true) → t.getV 15 = 1) ∧
      (¬(∃ p, spriteCovers s x y n p ∧ s.pixel p = true) → t.getV 15 = 0))

/-- R218, S5: the same draw twice puts every pixel back, and the second flag is 1 exactly when the first draw turned a
pixel on. With `VF` a coordinate the second draw is another draw, so `x` and `y` are not 15 here. -/
def Obligations.DrawingTwiceRestoresTheScreen : Prop :=
  ∀ (s t : State) (x y n : Nib), x ≠ 15 → y ≠ 15 → exec (.drw x y n) s = .next t →
    ∃ u, exec (.drw x y n) t = .next u ∧ u.fbLo = s.fbLo ∧ u.fbHi = s.fbHi ∧
      ((∃ p, s.pixel p = false ∧ t.pixel p = true) → u.getV 15 = 1) ∧
      (¬(∃ p, s.pixel p = false ∧ t.pixel p = true) → u.getV 15 = 0)

/-! ## Class F -/

/-- R240, R242, R243 (the sub-codes are G1): `LD Vx, DT` writes the delay timer to `V[x]`; `LD DT, Vx` and `LD ST, Vx` write `V[x]` to a
timer; nothing else changes. -/
def Obligations.TimerLoads : Prop :=
  ∀ (s : State) (x : Nib),
    writesRegister (exec (.ldXDt x) s) s x s.DT ∧
    (∃ t, exec (.ldDtX x) s = .next t ∧ t = { s with DT := t.DT } ∧ t.DT.toNat = (s.getV x).toNat) ∧
    (∃ t, exec (.ldStX x) s = .next t ∧ t = { s with ST := t.ST } ∧ t.ST.toNat = (s.getV x).toNat)

/-- R241 (D15): `LD Vx, K` completes at once, arming the wait and clearing the latch; the next step that finds no press
changes nothing, and after presses of two keys that were up, the step writes the later one's index to `V[x]`
(R288, R291). -/
def Obligations.KeyWaitDeliversTheLastPress : Prop :=
  ∀ (s : State) (x k k' : Nib),
    ∃ t, exec (.ldXK x) s = .next t ∧ t = { s with waiting := true, waitReg := x, latchValid := false } ∧
      step t = .next t ∧
      (s.key[k] = false → s.key[k'] = false → k ≠ k' →
        ∃ u, step (pressKey k' true (pressKey k true t)) = .next u ∧ u.waiting = false ∧ u.pc = s.pc ∧
          ∀ r, (u.getV r).toNat = if r = x then k'.val else (s.getV r).toNat)

/-- R246 (the order is D17, all or nothing D16): `LD B, Vx` stores the hundreds, tens and ones of `V[x]` at `I`, `I + 1`
and `I + 2`, or faults and stores nothing when one of them is outside 0x200..0xFFF. -/
def Obligations.DecimalStore : Prop :=
  ∀ (s : State) (x : Nib), Memory.wf s.cfg s.mem →
    (s.I.toNat < 0x200 ∨ s.I.toNat + 2 > 0xFFF → exec (.ldBX x) s = .fault (.outOfRangeAccess s)) ∧
    (0x200 ≤ s.I.toNat → s.I.toNat + 2 ≤ 0xFFF → ∃ t, exec (.ldBX x) s = .next t ∧ t = { s with mem := t.mem } ∧
      ∀ a, (t.peek a).toNat =
        if a = s.I.toNat then (s.getV x).toNat / 100
        else if a = s.I.toNat + 1 then (s.getV x).toNat / 10 % 10
        else if a = s.I.toNat + 2 then (s.getV x).toNat % 10
        else (s.peek a).toNat)

/-- R247 (D16): `LD [I], Vx` stores `V0..Vx` at `I..I+x`, or faults and stores nothing. -/
def Obligations.RegisterStore : Prop :=
  ∀ (s : State) (x : Nib), Memory.wf s.cfg s.mem →
    (s.I.toNat < 0x200 ∨ s.I.toNat + x.val > 0xFFF → exec (.ldMemX x) s = .fault (.outOfRangeAccess s)) ∧
    (0x200 ≤ s.I.toNat → s.I.toNat + x.val ≤ 0xFFF → ∃ t, exec (.ldMemX x) s = .next t ∧
      t = { s with mem := t.mem } ∧
      (∀ r : Nib, r ≤ x → t.peek (s.I.toNat + r.val) = s.getV r) ∧
      ∀ a, a < s.I.toNat ∨ s.I.toNat + x.val < a → t.peek a = s.peek a)

/-- R248 (D16): `LD Vx, [I]` loads `V0..Vx` from `I..I+x`, any address up to 0xFFF, or faults and loads nothing. -/
def Obligations.RegisterLoad : Prop :=
  ∀ (s : State) (x : Nib),
    (s.I.toNat + x.val > 0xFFF → exec (.ldXMem x) s = .fault (.outOfRangeAccess s)) ∧
    (s.I.toNat + x.val ≤ 0xFFF → ∃ t, exec (.ldXMem x) s = .next t ∧ t = { s with V := t.V } ∧
      ∀ r : Nib, t.getV r = if r ≤ x then s.peek (s.I.toNat + r.val) else s.getV r)

/-- R250, R251 (D32): with the gate on, the R bank takes and gives back `V0..Vx`, the other entries keeping their
values; with it off both raise `InvalidOpcode`. A `reset` in between changes nothing of it (R28). -/
def Obligations.PersistentRegisters : Prop :=
  ∀ (s : State) (x : Nib),
    (s.cfg.superEnabled = true →
      (∃ t, exec (.ldRX x) s = .next t ∧ t = { s with R := t.R } ∧
        (∀ r : Nib, t.R[r] = if r ≤ x then s.getV r else s.R[r]) ∧
        ∀ c, ∃ u, exec (.ldXR x) (hostReset c t) = .next u ∧ ∀ r : Nib, r ≤ x → u.getV r = s.getV r) ∧
      (∃ t, exec (.ldXR x) s = .next t ∧ t = { s with V := t.V } ∧
        ∀ r : Nib, t.getV r = if r ≤ x then s.R[r] else s.getV r)) ∧
    (s.cfg.superEnabled = false →
      exec (.ldRX x) s = .fault (.invalidOpcode s) ∧ exec (.ldXR x) s = .fault (.invalidOpcode s))

/-- R72 (D29): a store into program space is seen by the next fetch: when `LD [I], Vx` stores over the word at `pc`, the
step after it fetches the registers it stored. -/
def Obligations.StoredWordIsFetchedNext : Prop :=
  ∀ (s t : State) (x j k : Nib), Memory.wf s.cfg s.mem → legalPc s.pc.toNat = true → exec (.ldMemX x) s = .next t →
    s.pc.toNat = s.I.toNat + j.val → k.val = j.val + 1 → k ≤ x →
    fetch t = some (wordOfBytes (s.getV j) (s.getV k))

/-! ## The host's operations -/

/-- R285: `tick` lowers each timer by one, floored at 0, and has no other effect. -/
def Obligations.TickCountsBothTimersDown : Prop :=
  ∀ s : State, (tick s).DT.toNat = s.DT.toNat - 1 ∧ (tick s).ST.toNat = s.ST.toNat - 1 ∧
    tick s = { s with DT := (tick s).DT, ST := (tick s).ST }

/-- R288 (the latch is D15): `setKey` writes its key line; exactly on a released to pressed transition it also latches the key. With R289
(D35): an index of 16 or more is refused and changes nothing. -/
def Obligations.SetKeyLatchesOnlyPresses : Prop :=
  (∀ (s : State) (i : Nib) (pressed : Bool), ∃ t, setKey i.val pressed s = .ok t ∧
    t = { s with key := t.key, latchValid := t.latchValid, latchKey := t.latchKey } ∧
    (∀ j : Nib, t.key[j] = if j = i then pressed else s.key[j]) ∧
    (pressed = true ∧ s.key[i] = false → t.latchValid = true ∧ t.latchKey = i) ∧
    (¬(pressed = true ∧ s.key[i] = false) → t.latchValid = s.latchValid ∧ t.latchKey = s.latchKey)) ∧
  ∀ (s : State) (index : Nat) (pressed : Bool), 16 ≤ index →
    setKey index pressed s = .error .outOfRangeAccess ∧ (HostOp.setKey index pressed).apply s = s

/-- R320, R321, R44 (the latch, wait and resolution lines are D3, D4): after `reset` the font is at 0 to 79, memory above
it is zero or as it was, every register, timer, stack entry, key and pixel is 0, `pc` is 0x200, and the R bank and the
configuration are as they were. -/
def Obligations.ResetLeavesTheListedValues : Prop :=
  ∀ (s : State) (c : Bool), Memory.wf s.cfg s.mem →
    (∀ a, (h : a < 80) → (hostReset c s).peek a = s.cfg.fontTable[a]) ∧
    (∀ a, 80 ≤ a → (hostReset c s).peek a = if c then 0 else s.peek a) ∧
    (∀ r, (hostReset c s).getV r = 0) ∧ (hostReset c s).I = 0 ∧ (hostReset c s).DT = 0 ∧ (hostReset c s).ST = 0 ∧
    (hostReset c s).SP = 0 ∧ (∀ j, (hostReset c s).stack.getD j 0 = 0) ∧ (hostReset c s).pc = 0x200 ∧
    (∀ k : Nib, (hostReset c s).key[k] = false) ∧ (hostReset c s).latchValid = false ∧ (hostReset c s).latchKey = 0 ∧
    (hostReset c s).waiting = false ∧ (hostReset c s).waitReg = 0 ∧ (hostReset c s).highRes = false ∧
    (∀ p, pixelOf (hostReset c s).fbLo p = false ∧ pixelOf (hostReset c s).fbHi p = false) ∧
    (hostReset c s).R = s.R ∧ (hostReset c s).cfg = s.cfg

/-- R326, R327, R328 (that it touches memory only is D30, in R328): `loadProgram` puts the first 0xE00 bytes at 0x200 and
up, drops the rest, leaves every other byte, and changes nothing but memory. -/
def Obligations.LoadProgramCopiesAndTruncates : Prop :=
  ∀ (s : State) (bytes : List Byte), Memory.wf s.cfg s.mem →
    loadProgram bytes s = { s with mem := (loadProgram bytes s).mem } ∧
    (∀ k, (h : k < bytes.length) → k < 0xE00 → (loadProgram bytes s).peek (0x200 + k) = bytes[k]) ∧
    ∀ a, a < 0x200 ∨ 0x200 + min bytes.length 0xE00 ≤ a → (loadProgram bytes s).peek a = s.peek a

/-- R293, R289, R290 (the refusals of `isKey` and `pixelAt` are D35): each range-checked accessor returns its value in
range and `OutOfRangeAccess` out of it. -/
def Obligations.AccessorsRangeCheck : Prop :=
  ∀ (s : State) (j : Nat),
    (∀ h : j < 16, readV j s = .ok (s.getV ⟨j, h⟩) ∧ isKey j s = .ok s.key[j]) ∧
    (16 ≤ j → readV j s = .error .outOfRangeAccess ∧ isKey j s = .error .outOfRangeAccess) ∧
    (readMem j s = if j ≤ 0xFFF then .ok (s.peek j) else .error .outOfRangeAccess) ∧
    (pixelAt j s = if j < (if s.highRes then 8192 else 2048)
      then .ok (if s.highRes then pixelOf s.fbHi j else pixelOf s.fbLo j) else .error .outOfRangeAccess)

/-- R102, S10: decode and execute parity. Wherever a step runs an instruction, the disassembler at `pc` prints that
instruction, and with the default marker (D34) never the marker; for every invalid word it prints the marker. -/
def Obligations.DisassemblerAgreesWithDecode : Prop :=
  ∀ s : State, legalPc s.pc.toNat = true →
    (∀ i s', fetchDecode s = .ok (i, s') → disassembleCurrent s = mnemonicString i ∧ mnemonicString i ≠ "???") ∧
    (∀ s', fetchDecode s = .error (.invalidOpcode s') → disassembleCurrent s = s.cfg.badOpcodeMarker)
end

