-- ==== Sys2Proof/Laws/Decode.lean ====
section
/-! SUPPORT. The fields of an encoded word, and bytes of a word: what the round trip rests on. -/

namespace Sys2Proof

theorem fieldClass_val (w : Word) : (fieldClass w).val = w.toNat / 0x1000 := by
  have := w.isLt
  simp [fieldClass, BitVec.extractLsb', Nat.shiftRight_eq_div_pow]
  omega

theorem fieldX_val (w : Word) : (fieldX w).val = w.toNat / 0x100 % 0x10 := by
  simp [fieldX, BitVec.extractLsb', Nat.shiftRight_eq_div_pow]

theorem fieldY_val (w : Word) : (fieldY w).val = w.toNat / 0x10 % 0x10 := by
  simp [fieldY, BitVec.extractLsb', Nat.shiftRight_eq_div_pow]

theorem fieldV3_val (w : Word) : (fieldV3 w).val = w.toNat % 0x10 := by
  simp [fieldV3, BitVec.extractLsb', Nat.shiftRight_eq_div_pow]

theorem fieldKk_toNat (w : Word) : (fieldKk w).toNat = w.toNat % 0x100 := by
  simp [fieldKk, BitVec.extractLsb', Nat.shiftRight_eq_div_pow]

theorem fieldNnn_toNat (w : Word) : (fieldNnn w).toNat = w.toNat % 0x1000 := by
  simp [fieldNnn, BitVec.extractLsb', Nat.shiftRight_eq_div_pow]

/-! ## Encoded words -/

theorem word4_toNat {c x y n : Nat} (hc : c < 16) (hx : x < 16) (hy : y < 16) (hn : n < 16) :
    (word4 c x y n).toNat = c * 0x1000 + x * 0x100 + y * 0x10 + n := by
  simp [word4]; omega

theorem word211_toNat {c x kk : Nat} (hc : c < 16) (hx : x < 16) (hk : kk < 256) :
    (word211 c x kk).toNat = c * 0x1000 + x * 0x100 + kk := by
  simp [word211]; omega

theorem word13_toNat {c nnn : Nat} (hc : c < 16) (hn : nnn < 0x1000) :
    (word13 c nnn).toNat = c * 0x1000 + nnn := by
  simp [word13]; omega

theorem wordOfBytes_toNat (b0 b1 : Byte) : (wordOfBytes b0 b1).toNat = b0.toNat * 0x100 + b1.toNat := by
  change (b0 ++ b1 : BitVec (8 + 8)).toNat = _
  rw [BitVec.toNat_append, ← Nat.shiftLeft_add_eq_or_of_lt b1.isLt, Nat.shiftLeft_eq]

/-- The bytes of a word, joined, are the word. -/
theorem wordOfBytes_bytesOfWord (w : Word) :
    wordOfBytes (w.extractLsb' 8 8) (w.extractLsb' 0 8) = w := by
  apply BitVec.eq_of_toNat_eq
  have := w.isLt
  simp [wordOfBytes_toNat, BitVec.extractLsb', Nat.shiftRight_eq_div_pow]
  omega

theorem decodeBytes_bytesOfWord (g : Bool) (w : Word) (rest : List Byte) :
    decodeBytes g (bytesOfWord w ++ rest) = (decodeWord g w).map fun i => (i, rest) := by
  simp only [bytesOfWord, List.cons_append, List.nil_append, decodeBytes, wordOfBytes_bytesOfWord]
  cases decodeWord g w <;> rfl

/-! ## What each decoder answers, by the fields' numbers -/

/-- The class number and the fields of a word of format `XY`, `XYN` or `SCD`. -/
theorem fields_word4 {c : Nat} (x y n : Nib) (hc : c < 16) :
    (fieldClass (word4 c x y n)).val = c ∧ fieldX (word4 c x y n) = x ∧ fieldY (word4 c x y n) = y ∧
      fieldV3 (word4 c x y n) = n ∧ (fieldKk (word4 c x y n)).toNat = y.val * 16 + n.val := by
  have h := word4_toNat hc x.isLt y.isLt n.isLt
  have := x.isLt
  have := y.isLt
  have := n.isLt
  refine ⟨?_, Fin.ext ?_, Fin.ext ?_, Fin.ext ?_, ?_⟩ <;>
    simp only [fieldClass_val, fieldX_val, fieldY_val, fieldV3_val, fieldKk_toNat, h] <;> omega

/-- The class number and the fields of a word of format `XKK`, `XS` or `S`. -/
theorem fields_word211 {c kk : Nat} (x : Nib) (hc : c < 16) (hk : kk < 256) :
    (fieldClass (word211 c x kk)).val = c ∧ fieldX (word211 c x kk) = x ∧
      fieldKk (word211 c x kk) = BitVec.ofNat 8 kk ∧ (fieldY (word211 c x kk)).val = kk / 16 := by
  have h := word211_toNat hc x.isLt hk
  have := x.isLt
  refine ⟨?_, Fin.ext ?_, BitVec.eq_of_toNat_eq ?_, ?_⟩ <;>
    simp only [fieldClass_val, fieldX_val, fieldY_val, fieldKk_toNat, h, BitVec.toNat_ofNat] <;> omega

/-- The class number and the address of a word of format `NNN`. -/
theorem fields_word13 {c : Nat} (nnn : Addr) (hc : c < 16) :
    (fieldClass (word13 c nnn.toNat)).val = c ∧ fieldNnn (word13 c nnn.toNat) = nnn ∧
      (fieldKk (word13 c nnn.toNat)).toNat = nnn.toNat % 256 ∧
      (fieldY (word13 c nnn.toNat)).val = nnn.toNat / 16 % 16 ∧ (word13 c nnn.toNat).toNat = c * 0x1000 + nnn.toNat := by
  have h := word13_toNat hc nnn.isLt
  have := nnn.isLt
  refine ⟨?_, BitVec.eq_of_toNat_eq ?_, ?_, ?_, h⟩ <;>
    simp only [fieldClass_val, fieldNnn_toNat, fieldY_val, fieldKk_toNat, h] <;> omega

end Sys2Proof
end

