-- ==== Sys2Proof/Laws/State.lean ====
section
/-! SUPPORT. One lemma per field per named update of State, true by rfl or by the one case split of the update, so that no
proof unfolds a record update; and reading a register after writing one. -/

namespace Sys2Proof.Machine

/-! ## `setV` -/

@[simp] theorem State.setV_I (s : State) (x : Nib) (b : Byte) : (s.setV x b).I = s.I := rfl
@[simp] theorem State.setV_R (s : State) (x : Nib) (b : Byte) : (s.setV x b).R = s.R := rfl
@[simp] theorem State.setV_DT (s : State) (x : Nib) (b : Byte) : (s.setV x b).DT = s.DT := rfl
@[simp] theorem State.setV_ST (s : State) (x : Nib) (b : Byte) : (s.setV x b).ST = s.ST := rfl
@[simp] theorem State.setV_pc (s : State) (x : Nib) (b : Byte) : (s.setV x b).pc = s.pc := rfl
@[simp] theorem State.setV_SP (s : State) (x : Nib) (b : Byte) : (s.setV x b).SP = s.SP := rfl
@[simp] theorem State.setV_stack (s : State) (x : Nib) (b : Byte) : (s.setV x b).stack = s.stack := rfl
@[simp] theorem State.setV_mem (s : State) (x : Nib) (b : Byte) : (s.setV x b).mem = s.mem := rfl
@[simp] theorem State.setV_fbLo (s : State) (x : Nib) (b : Byte) : (s.setV x b).fbLo = s.fbLo := rfl
@[simp] theorem State.setV_fbHi (s : State) (x : Nib) (b : Byte) : (s.setV x b).fbHi = s.fbHi := rfl
@[simp] theorem State.setV_highRes (s : State) (x : Nib) (b : Byte) : (s.setV x b).highRes = s.highRes := rfl
@[simp] theorem State.setV_key (s : State) (x : Nib) (b : Byte) : (s.setV x b).key = s.key := rfl
@[simp] theorem State.setV_latchValid (s : State) (x : Nib) (b : Byte) : (s.setV x b).latchValid = s.latchValid := rfl
@[simp] theorem State.setV_latchKey (s : State) (x : Nib) (b : Byte) : (s.setV x b).latchKey = s.latchKey := rfl
@[simp] theorem State.setV_waiting (s : State) (x : Nib) (b : Byte) : (s.setV x b).waiting = s.waiting := rfl
@[simp] theorem State.setV_waitReg (s : State) (x : Nib) (b : Byte) : (s.setV x b).waitReg = s.waitReg := rfl
@[simp] theorem State.setV_cfg (s : State) (x : Nib) (b : Byte) : (s.setV x b).cfg = s.cfg := rfl
@[simp] theorem State.setV_draws (s : State) (x : Nib) (b : Byte) : (s.setV x b).draws = s.draws := rfl

/-! ## `setFlag` -/

@[simp] theorem State.setFlag_I (s : State) (c : Bool) : (s.setFlag c).I = s.I := rfl
@[simp] theorem State.setFlag_R (s : State) (c : Bool) : (s.setFlag c).R = s.R := rfl
@[simp] theorem State.setFlag_DT (s : State) (c : Bool) : (s.setFlag c).DT = s.DT := rfl
@[simp] theorem State.setFlag_ST (s : State) (c : Bool) : (s.setFlag c).ST = s.ST := rfl
@[simp] theorem State.setFlag_pc (s : State) (c : Bool) : (s.setFlag c).pc = s.pc := rfl
@[simp] theorem State.setFlag_SP (s : State) (c : Bool) : (s.setFlag c).SP = s.SP := rfl
@[simp] theorem State.setFlag_stack (s : State) (c : Bool) : (s.setFlag c).stack = s.stack := rfl
@[simp] theorem State.setFlag_mem (s : State) (c : Bool) : (s.setFlag c).mem = s.mem := rfl
@[simp] theorem State.setFlag_fbLo (s : State) (c : Bool) : (s.setFlag c).fbLo = s.fbLo := rfl
@[simp] theorem State.setFlag_fbHi (s : State) (c : Bool) : (s.setFlag c).fbHi = s.fbHi := rfl
@[simp] theorem State.setFlag_highRes (s : State) (c : Bool) : (s.setFlag c).highRes = s.highRes := rfl
@[simp] theorem State.setFlag_key (s : State) (c : Bool) : (s.setFlag c).key = s.key := rfl
@[simp] theorem State.setFlag_latchValid (s : State) (c : Bool) : (s.setFlag c).latchValid = s.latchValid := rfl
@[simp] theorem State.setFlag_latchKey (s : State) (c : Bool) : (s.setFlag c).latchKey = s.latchKey := rfl
@[simp] theorem State.setFlag_waiting (s : State) (c : Bool) : (s.setFlag c).waiting = s.waiting := rfl
@[simp] theorem State.setFlag_waitReg (s : State) (c : Bool) : (s.setFlag c).waitReg = s.waitReg := rfl
@[simp] theorem State.setFlag_cfg (s : State) (c : Bool) : (s.setFlag c).cfg = s.cfg := rfl
@[simp] theorem State.setFlag_draws (s : State) (c : Bool) : (s.setFlag c).draws = s.draws := rfl

/-! ## `setI` -/

@[simp] theorem State.setI_V (s : State) (v : Nat) : (s.setI v).V = s.V := rfl
@[simp] theorem State.setI_R (s : State) (v : Nat) : (s.setI v).R = s.R := rfl
@[simp] theorem State.setI_DT (s : State) (v : Nat) : (s.setI v).DT = s.DT := rfl
@[simp] theorem State.setI_ST (s : State) (v : Nat) : (s.setI v).ST = s.ST := rfl
@[simp] theorem State.setI_pc (s : State) (v : Nat) : (s.setI v).pc = s.pc := rfl
@[simp] theorem State.setI_SP (s : State) (v : Nat) : (s.setI v).SP = s.SP := rfl
@[simp] theorem State.setI_stack (s : State) (v : Nat) : (s.setI v).stack = s.stack := rfl
@[simp] theorem State.setI_mem (s : State) (v : Nat) : (s.setI v).mem = s.mem := rfl
@[simp] theorem State.setI_fbLo (s : State) (v : Nat) : (s.setI v).fbLo = s.fbLo := rfl
@[simp] theorem State.setI_fbHi (s : State) (v : Nat) : (s.setI v).fbHi = s.fbHi := rfl
@[simp] theorem State.setI_highRes (s : State) (v : Nat) : (s.setI v).highRes = s.highRes := rfl
@[simp] theorem State.setI_key (s : State) (v : Nat) : (s.setI v).key = s.key := rfl
@[simp] theorem State.setI_latchValid (s : State) (v : Nat) : (s.setI v).latchValid = s.latchValid := rfl
@[simp] theorem State.setI_latchKey (s : State) (v : Nat) : (s.setI v).latchKey = s.latchKey := rfl
@[simp] theorem State.setI_waiting (s : State) (v : Nat) : (s.setI v).waiting = s.waiting := rfl
@[simp] theorem State.setI_waitReg (s : State) (v : Nat) : (s.setI v).waitReg = s.waitReg := rfl
@[simp] theorem State.setI_cfg (s : State) (v : Nat) : (s.setI v).cfg = s.cfg := rfl
@[simp] theorem State.setI_draws (s : State) (v : Nat) : (s.setI v).draws = s.draws := rfl

/-! ## `poke` -/

@[simp] theorem State.poke_V (s : State) (a : Nat) (bs : List Byte) : (s.poke a bs).V = s.V := rfl
@[simp] theorem State.poke_I (s : State) (a : Nat) (bs : List Byte) : (s.poke a bs).I = s.I := rfl
@[simp] theorem State.poke_R (s : State) (a : Nat) (bs : List Byte) : (s.poke a bs).R = s.R := rfl
@[simp] theorem State.poke_DT (s : State) (a : Nat) (bs : List Byte) : (s.poke a bs).DT = s.DT := rfl
@[simp] theorem State.poke_ST (s : State) (a : Nat) (bs : List Byte) : (s.poke a bs).ST = s.ST := rfl
@[simp] theorem State.poke_pc (s : State) (a : Nat) (bs : List Byte) : (s.poke a bs).pc = s.pc := rfl
@[simp] theorem State.poke_SP (s : State) (a : Nat) (bs : List Byte) : (s.poke a bs).SP = s.SP := rfl
@[simp] theorem State.poke_stack (s : State) (a : Nat) (bs : List Byte) : (s.poke a bs).stack = s.stack := rfl
@[simp] theorem State.poke_fbLo (s : State) (a : Nat) (bs : List Byte) : (s.poke a bs).fbLo = s.fbLo := rfl
@[simp] theorem State.poke_fbHi (s : State) (a : Nat) (bs : List Byte) : (s.poke a bs).fbHi = s.fbHi := rfl
@[simp] theorem State.poke_highRes (s : State) (a : Nat) (bs : List Byte) : (s.poke a bs).highRes = s.highRes := rfl
@[simp] theorem State.poke_key (s : State) (a : Nat) (bs : List Byte) : (s.poke a bs).key = s.key := rfl
@[simp] theorem State.poke_latchValid (s : State) (a : Nat) (bs : List Byte) : (s.poke a bs).latchValid = s.latchValid := rfl
@[simp] theorem State.poke_latchKey (s : State) (a : Nat) (bs : List Byte) : (s.poke a bs).latchKey = s.latchKey := rfl
@[simp] theorem State.poke_waiting (s : State) (a : Nat) (bs : List Byte) : (s.poke a bs).waiting = s.waiting := rfl
@[simp] theorem State.poke_waitReg (s : State) (a : Nat) (bs : List Byte) : (s.poke a bs).waitReg = s.waitReg := rfl
@[simp] theorem State.poke_cfg (s : State) (a : Nat) (bs : List Byte) : (s.poke a bs).cfg = s.cfg := rfl
@[simp] theorem State.poke_draws (s : State) (a : Nat) (bs : List Byte) : (s.poke a bs).draws = s.draws := rfl

/-! ## `advanced` -/

@[simp] theorem State.advanced_V (s : State) : (s.advanced).V = s.V := rfl
@[simp] theorem State.advanced_I (s : State) : (s.advanced).I = s.I := rfl
@[simp] theorem State.advanced_R (s : State) : (s.advanced).R = s.R := rfl
@[simp] theorem State.advanced_DT (s : State) : (s.advanced).DT = s.DT := rfl
@[simp] theorem State.advanced_ST (s : State) : (s.advanced).ST = s.ST := rfl
@[simp] theorem State.advanced_SP (s : State) : (s.advanced).SP = s.SP := rfl
@[simp] theorem State.advanced_stack (s : State) : (s.advanced).stack = s.stack := rfl
@[simp] theorem State.advanced_mem (s : State) : (s.advanced).mem = s.mem := rfl
@[simp] theorem State.advanced_fbLo (s : State) : (s.advanced).fbLo = s.fbLo := rfl
@[simp] theorem State.advanced_fbHi (s : State) : (s.advanced).fbHi = s.fbHi := rfl
@[simp] theorem State.advanced_highRes (s : State) : (s.advanced).highRes = s.highRes := rfl
@[simp] theorem State.advanced_key (s : State) : (s.advanced).key = s.key := rfl
@[simp] theorem State.advanced_latchValid (s : State) : (s.advanced).latchValid = s.latchValid := rfl
@[simp] theorem State.advanced_latchKey (s : State) : (s.advanced).latchKey = s.latchKey := rfl
@[simp] theorem State.advanced_waiting (s : State) : (s.advanced).waiting = s.waiting := rfl
@[simp] theorem State.advanced_waitReg (s : State) : (s.advanced).waitReg = s.waitReg := rfl
@[simp] theorem State.advanced_cfg (s : State) : (s.advanced).cfg = s.cfg := rfl
@[simp] theorem State.advanced_draws (s : State) : (s.advanced).draws = s.draws := rfl

@[simp] theorem State.advanced_pc (s : State) : s.advanced.pc = s.pc + 2 := rfl
@[simp] theorem State.setI_I (s : State) (v : Nat) : (s.setI v).I = BitVec.ofNat 16 (v % 0x1000) := rfl

/-! ## `onActive` -/

@[simp] theorem State.onActive_V (s : State) (f : {w h : Nat} → Frame w h → Frame w h) : (s.onActive f).V = s.V := by unfold State.onActive; split <;> rfl
@[simp] theorem State.onActive_I (s : State) (f : {w h : Nat} → Frame w h → Frame w h) : (s.onActive f).I = s.I := by unfold State.onActive; split <;> rfl
@[simp] theorem State.onActive_R (s : State) (f : {w h : Nat} → Frame w h → Frame w h) : (s.onActive f).R = s.R := by unfold State.onActive; split <;> rfl
@[simp] theorem State.onActive_DT (s : State) (f : {w h : Nat} → Frame w h → Frame w h) : (s.onActive f).DT = s.DT := by unfold State.onActive; split <;> rfl
@[simp] theorem State.onActive_ST (s : State) (f : {w h : Nat} → Frame w h → Frame w h) : (s.onActive f).ST = s.ST := by unfold State.onActive; split <;> rfl
@[simp] theorem State.onActive_pc (s : State) (f : {w h : Nat} → Frame w h → Frame w h) : (s.onActive f).pc = s.pc := by unfold State.onActive; split <;> rfl
@[simp] theorem State.onActive_SP (s : State) (f : {w h : Nat} → Frame w h → Frame w h) : (s.onActive f).SP = s.SP := by unfold State.onActive; split <;> rfl
@[simp] theorem State.onActive_stack (s : State) (f : {w h : Nat} → Frame w h → Frame w h) : (s.onActive f).stack = s.stack := by unfold State.onActive; split <;> rfl
@[simp] theorem State.onActive_mem (s : State) (f : {w h : Nat} → Frame w h → Frame w h) : (s.onActive f).mem = s.mem := by unfold State.onActive; split <;> rfl
@[simp] theorem State.onActive_highRes (s : State) (f : {w h : Nat} → Frame w h → Frame w h) : (s.onActive f).highRes = s.highRes := by unfold State.onActive; split <;> rfl
@[simp] theorem State.onActive_key (s : State) (f : {w h : Nat} → Frame w h → Frame w h) : (s.onActive f).key = s.key := by unfold State.onActive; split <;> rfl
@[simp] theorem State.onActive_latchValid (s : State) (f : {w h : Nat} → Frame w h → Frame w h) : (s.onActive f).latchValid = s.latchValid := by unfold State.onActive; split <;> rfl
@[simp] theorem State.onActive_latchKey (s : State) (f : {w h : Nat} → Frame w h → Frame w h) : (s.onActive f).latchKey = s.latchKey := by unfold State.onActive; split <;> rfl
@[simp] theorem State.onActive_waiting (s : State) (f : {w h : Nat} → Frame w h → Frame w h) : (s.onActive f).waiting = s.waiting := by unfold State.onActive; split <;> rfl
@[simp] theorem State.onActive_waitReg (s : State) (f : {w h : Nat} → Frame w h → Frame w h) : (s.onActive f).waitReg = s.waitReg := by unfold State.onActive; split <;> rfl
@[simp] theorem State.onActive_cfg (s : State) (f : {w h : Nat} → Frame w h → Frame w h) : (s.onActive f).cfg = s.cfg := by unfold State.onActive; split <;> rfl
@[simp] theorem State.onActive_draws (s : State) (f : {w h : Nat} → Frame w h → Frame w h) : (s.onActive f).draws = s.draws := by unfold State.onActive; split <;> rfl

/-! ## `plot` -/

@[simp] theorem State.plot_V (s : State) (ps : List Nat) : ((s.plot ps).1).V = s.V := by unfold State.plot; split <;> rfl
@[simp] theorem State.plot_I (s : State) (ps : List Nat) : ((s.plot ps).1).I = s.I := by unfold State.plot; split <;> rfl
@[simp] theorem State.plot_R (s : State) (ps : List Nat) : ((s.plot ps).1).R = s.R := by unfold State.plot; split <;> rfl
@[simp] theorem State.plot_DT (s : State) (ps : List Nat) : ((s.plot ps).1).DT = s.DT := by unfold State.plot; split <;> rfl
@[simp] theorem State.plot_ST (s : State) (ps : List Nat) : ((s.plot ps).1).ST = s.ST := by unfold State.plot; split <;> rfl
@[simp] theorem State.plot_pc (s : State) (ps : List Nat) : ((s.plot ps).1).pc = s.pc := by unfold State.plot; split <;> rfl
@[simp] theorem State.plot_SP (s : State) (ps : List Nat) : ((s.plot ps).1).SP = s.SP := by unfold State.plot; split <;> rfl
@[simp] theorem State.plot_stack (s : State) (ps : List Nat) : ((s.plot ps).1).stack = s.stack := by unfold State.plot; split <;> rfl
@[simp] theorem State.plot_mem (s : State) (ps : List Nat) : ((s.plot ps).1).mem = s.mem := by unfold State.plot; split <;> rfl
@[simp] theorem State.plot_highRes (s : State) (ps : List Nat) : ((s.plot ps).1).highRes = s.highRes := by unfold State.plot; split <;> rfl
@[simp] theorem State.plot_key (s : State) (ps : List Nat) : ((s.plot ps).1).key = s.key := by unfold State.plot; split <;> rfl
@[simp] theorem State.plot_latchValid (s : State) (ps : List Nat) : ((s.plot ps).1).latchValid = s.latchValid := by unfold State.plot; split <;> rfl
@[simp] theorem State.plot_latchKey (s : State) (ps : List Nat) : ((s.plot ps).1).latchKey = s.latchKey := by unfold State.plot; split <;> rfl
@[simp] theorem State.plot_waiting (s : State) (ps : List Nat) : ((s.plot ps).1).waiting = s.waiting := by unfold State.plot; split <;> rfl
@[simp] theorem State.plot_waitReg (s : State) (ps : List Nat) : ((s.plot ps).1).waitReg = s.waitReg := by unfold State.plot; split <;> rfl
@[simp] theorem State.plot_cfg (s : State) (ps : List Nat) : ((s.plot ps).1).cfg = s.cfg := by unfold State.plot; split <;> rfl
@[simp] theorem State.plot_draws (s : State) (ps : List Nat) : ((s.plot ps).1).draws = s.draws := by unfold State.plot; split <;> rfl

/-! ## Reading a vector with a default -/

theorem getD_of_lt {α : Type} {n : Nat} (v : Vector α n) {k : Nat} (d : α) (h : k < n) : v.getD k d = v[k] := by
  simp [Vector.getD, h]

theorem getD_of_ge {α : Type} {n : Nat} (v : Vector α n) {k : Nat} (d : α) (h : n ≤ k) : v.getD k d = d := by
  simp [Vector.getD, Array.getD, show ¬k < n by omega]

theorem getD_setIfInBounds {α : Type} {n : Nat} (v : Vector α n) (k j : Nat) (a d : α) :
    (v.setIfInBounds k a).getD j d = if k = j ∧ j < n then a else v.getD j d := by
  by_cases hj : j < n
  · rw [getD_of_lt _ _ hj, getD_of_lt _ _ hj, Vector.getElem_setIfInBounds]
    simp [hj]
  · rw [getD_of_ge _ _ (by omega), getD_of_ge _ _ (by omega), if_neg (by omega)]

/-! ## Reading a register -/

/-- A register read looks at the `V` bank alone. -/
theorem State.getV_eq {s t : State} (h : t.V = s.V) (r : Nib) : t.getV r = s.getV r := by
  simp [State.getV, h]

theorem State.getV_setV (s : State) (x r : Nib) (b : Byte) : (s.setV x b).getV r = if r = x then b else s.getV r := by
  simp only [State.getV, State.setV, Fin.getElem_fin, Vector.getElem_set, Fin.ext_iff, eq_comm]

theorem State.getV_setFlag (s : State) (r : Nib) (c : Bool) :
    (s.setFlag c).getV r = if r = 15 then flagByte c else s.getV r :=
  State.getV_setV s 15 r (flagByte c)

@[simp] theorem State.getV_setI (s : State) (v : Nat) (r : Nib) : (s.setI v).getV r = s.getV r := rfl
@[simp] theorem State.getV_poke (s : State) (a : Nat) (bs : List Byte) (r : Nib) : (s.poke a bs).getV r = s.getV r := rfl
@[simp] theorem State.getV_advanced (s : State) (r : Nib) : s.advanced.getV r = s.getV r := rfl

@[simp] theorem State.getV_plot (s : State) (ps : List Nat) (r : Nib) : (s.plot ps).1.getV r = s.getV r :=
  State.getV_eq (State.plot_V s ps) r

/-- A state that differs in `V` alone is a record update of `V`. -/
theorem State.setV_eq (s : State) (x : Nib) (b : Byte) : s.setV x b = { s with V := (s.setV x b).V } := rfl

theorem State.setFlag_eq (s : State) (c : Bool) : s.setFlag c = { s with V := (s.setFlag c).V } := rfl

/-! ## Faults -/

theorem raise_after (e : FaultCode) (s : State) (f : Fault) (h : raise e s = .fault f) :
    f.after = s ∧ f.code = e := by
  cases e <;> simp only [raise, Host.Outcome.fault.injEq] at h <;> subst h <;> exact ⟨rfl, rfl⟩

end Sys2Proof.Machine
end

