-- ==== Sys2Proof/Laws/Memory.lean ====
section
/-! SUPPORT. Memory: read after write, and that every operation keeps the canonical form. -/

namespace Sys2Proof.Machine

theorem resetByte_of_le (cfg : Config) {a : Nat} (h : 80 ≤ a) : resetByte cfg a = 0 := by
  simp [resetByte, Vector.getD, Array.getD, show ¬a < 80 by omega]

theorem resetByte_of_lt (cfg : Config) {a : Nat} (h : a < 80) : resetByte cfg a = cfg.fontTable[a] := by
  simp [resetByte, Vector.getD, Array.getD, h]

namespace Memory

/-- An address below every listed one reads as its reset contents. -/
theorem read_of_lt (cfg : Config) (m : List Host.Cell) (a : Nat) (h : ∀ c ∈ m, a < c.1) :
    read cfg m a = resetByte cfg a := by
  induction m with
  | nil => rfl
  | cons c m ih =>
    obtain ⟨a', b'⟩ := c
    have h0 := h (a', b') (by simp)
    simp only [read, show a ≠ a' by simp only at h0; omega, if_false]
    exact ih fun c hc => h c (by simp [hc])

theorem wf_nil (cfg : Config) : wf cfg [] := by simp [wf]

theorem wf_cons (cfg : Config) (c : Host.Cell) (m : List Host.Cell) :
    wf cfg (c :: m) ↔ (∀ d ∈ m, c.1 < d.1) ∧ (c.1 < 0x1000 ∧ c.2 ≠ resetByte cfg c.1) ∧ wf cfg m := by
  simp only [wf, List.pairwise_cons, List.mem_cons, forall_eq_or_imp]
  tauto

/-- The first address of a memory after a write is the old first one or the one written. -/
theorem write_lower (cfg : Config) (m : List Host.Cell) (a : Nat) (b : Byte) (l : Nat)
    (hm : ∀ c ∈ m, l < c.1) (ha : l < a) : ∀ c ∈ write cfg m a b, l < c.1 := by
  induction m with
  | nil => unfold write; split <;> simp [ha]
  | cons c m ih =>
    obtain ⟨a', b'⟩ := c
    have h' := hm (a', b') (by simp)
    have ih := ih fun c hc => hm c (by simp [hc])
    have hm' : ∀ c ∈ m, l < c.1 := fun c hc => hm c (by simp [hc])
    unfold write
    split
    · split
      · exact hm
      · intro c hc
        rcases List.mem_cons.1 hc with rfl | hc
        · exact ha
        · exact hm c hc
    · split
      · split
        · exact hm'
        · intro c hc
          rcases List.mem_cons.1 hc with rfl | hc
          · exact ha
          · exact hm' c hc
      · intro c hc
        rcases List.mem_cons.1 hc with rfl | hc
        · exact h'
        · exact ih c hc

theorem write_wf (cfg : Config) (m : List Host.Cell) (a : Nat) (b : Byte) (hm : wf cfg m) (ha : a < 0x1000) :
    wf cfg (write cfg m a b) := by
  induction m with
  | nil => unfold write; split <;> simp [wf, *]
  | cons c m ih =>
    obtain ⟨a', b'⟩ := c
    have hm0 := hm
    rw [wf_cons] at hm
    obtain ⟨hlt, hc, hm'⟩ := hm
    simp only at hlt hc
    unfold write
    split
    · rename_i h
      split
      · exact hm0
      · rw [wf_cons]
        refine ⟨fun d hd => ?_, ⟨ha, by assumption⟩, hm0⟩
        rcases List.mem_cons.1 hd with rfl | hd
        · exact h
        · exact lt_trans h (hlt d hd)
    · split
      · rename_i h
        subst h
        split
        · exact hm'
        · rw [wf_cons]
          exact ⟨hlt, ⟨ha, by assumption⟩, hm'⟩
      · rw [wf_cons]
        exact ⟨write_lower cfg m a b a' hlt (by omega), hc, ih hm'⟩

theorem read_write (cfg : Config) (m : List Host.Cell) (a a' : Nat) (b : Byte) (hm : wf cfg m) :
    read cfg (write cfg m a b) a' = if a' = a then b else read cfg m a' := by
  induction m with
  | nil =>
    unfold write
    split
    · rename_i h
      simp only [read, h]
      split
      · subst_vars; rfl
      · rfl
    · simp [read]
  | cons c m ih =>
    obtain ⟨p, q⟩ := c
    rw [wf_cons] at hm
    obtain ⟨hlt, hc, hm'⟩ := hm
    simp only at hlt hc
    have ih := ih hm'
    unfold write
    split
    · rename_i h
      split
      · rename_i hb
        split
        · subst_vars
          rw [read_of_lt]
          intro c hc
          rcases List.mem_cons.1 hc with rfl | hc
          · exact h
          · exact lt_trans h (hlt c hc)
        · rfl
      · simp only [read]
    · split
      · rename_i h
        subst h
        split
        · rename_i hb
          by_cases h' : a' = a
          · subst h'
            simp only [if_true, hb]
            exact read_of_lt cfg m a' hlt
          · simp [read, h']
        · simp only [read]
          split <;> rfl
      · rename_i h
        simp only [read, ih]
        split
        · subst_vars
          simp [Ne.symm h]
        · rfl

theorem writeList_wf (cfg : Config) (bs : List Byte) (m : List Host.Cell) (a : Nat) (hm : wf cfg m)
    (ha : a + bs.length ≤ 0x1000) : wf cfg (writeList cfg m a bs) := by
  induction bs generalizing m a with
  | nil => exact hm
  | cons b bs ih =>
    simp only [List.length_cons] at ha
    exact ih _ _ (write_wf cfg m a b hm (by omega)) (by omega)

theorem read_writeList (cfg : Config) (bs : List Byte) (m : List Host.Cell) (a a' : Nat) (hm : wf cfg m)
    (ha : a + bs.length ≤ 0x1000) :
    read cfg (writeList cfg m a bs) a' = if a ≤ a' then bs.getD (a' - a) (read cfg m a') else read cfg m a' := by
  induction bs generalizing m a with
  | nil => simp [writeList]
  | cons b bs ih =>
    simp only [List.length_cons] at ha
    rw [writeList, ih _ _ (write_wf cfg m a b hm (by omega)) (by omega), read_write cfg m a a' b hm]
    by_cases h : a + 1 ≤ a'
    · have hs : a' - a = (a' - (a + 1)) + 1 := by omega
      have hne : a' ≠ a := by omega
      rw [if_pos h, if_neg hne, if_pos (show a ≤ a' by omega), hs, List.getD_cons_succ]
    · rw [if_neg h]
      by_cases h' : a' = a
      · subst h'; simp
      · rw [if_neg h', if_neg (by omega)]

/-- Dropping the cells of some addresses keeps the canonical form. -/
theorem filter_wf (cfg : Config) (m : List Host.Cell) (p : Host.Cell → Bool) (hm : wf cfg m) : wf cfg (m.filter p) :=
  ⟨hm.1.filter p, fun c hc => hm.2 c (List.mem_of_mem_filter hc)⟩

theorem read_filter (cfg : Config) (m : List Host.Cell) (p : Nat → Bool) (a : Nat) :
    read cfg (m.filter fun c => p c.1) a = if p a then read cfg m a else resetByte cfg a := by
  induction m with
  | nil => simp [read]
  | cons c m ih =>
    obtain ⟨a', b'⟩ := c
    by_cases hp : p a' = true
    · simp only [List.filter_cons, hp, if_true, read, ih]
      split
      · subst_vars; simp [hp]
      · rfl
    · have hp' : p a' = false := by simpa using hp
      rw [List.filter_cons_of_neg (by simp [hp']), ih, read]
      by_cases ha : a = a'
      · subst ha; simp [hp']
      · simp [ha]

end Memory

/-! ## The state's memory -/

/-- Putting bytes into a canonical memory: the bytes stand there, every other address reads as before. -/
theorem State.peek_poke (s : State) (a a' : Nat) (bs : List Byte) (hm : Memory.wf s.cfg s.mem)
    (ha : a + bs.length ≤ 0x1000) :
    (s.poke a bs).peek a' = if a ≤ a' then bs.getD (a' - a) (s.peek a') else s.peek a' :=
  Memory.read_writeList s.cfg bs s.mem a a' hm ha

theorem State.poke_wf (s : State) (a : Nat) (bs : List Byte) (hm : Memory.wf s.cfg s.mem)
    (ha : a + bs.length ≤ 0x1000) : Memory.wf (s.poke a bs).cfg (s.poke a bs).mem :=
  Memory.writeList_wf s.cfg bs s.mem a hm ha

/-- What a read of memory looks at. -/
theorem State.peek_eq {s t : State} (hm : t.mem = s.mem) (hc : t.cfg = s.cfg) (a : Nat) : t.peek a = s.peek a := by
  simp [State.peek, hm, hc]

@[simp] theorem State.peek_setV (s : State) (x : Nib) (b : Byte) (a : Nat) : (s.setV x b).peek a = s.peek a := rfl
@[simp] theorem State.peek_setFlag (s : State) (c : Bool) (a : Nat) : (s.setFlag c).peek a = s.peek a := rfl
@[simp] theorem State.peek_setI (s : State) (v a : Nat) : (s.setI v).peek a = s.peek a := rfl
@[simp] theorem State.peek_advanced (s : State) (a : Nat) : s.advanced.peek a = s.peek a := rfl

@[simp] theorem State.peek_plot (s : State) (ps : List Nat) (a : Nat) : (s.plot ps).1.peek a = s.peek a :=
  State.peek_eq (State.plot_mem s ps) (State.plot_cfg s ps) a

end Sys2Proof.Machine
end

