-- ==== Sys2Proof/Laws/Ops.lean ====
section
/-! SUPPORT. One lemma per shared operation that says everything it can answer; provers cite these instead of unfolding. -/

namespace Sys2Proof.Machine

/-! ## Program counter -/

theorem legalPc_iff (t : Nat) : legalPc t = true ↔ 0x200 ≤ t ∧ t ≤ 0xFFE ∧ t % 2 = 0 := by
  simp only [legalPc, Bool.not_eq_true', Bool.or_eq_false_iff, decide_eq_false_iff_not]
  omega

theorem not_badTarget_iff (t : Nat) : ¬badTarget t ↔ legalPc t = true := by
  rw [legalPc_iff, badTarget]; omega

theorem writePc_of_legal {t : Nat} (s : State) (h : legalPc t = true) :
    writePc t s = .next { s with pc := BitVec.ofNat 16 t } := by
  simp [writePc, h]

theorem writePc_of_bad {t : Nat} (s : State) (h : badTarget t) : writePc t s = .fault (.outOfRangeAccess s) := by
  have : legalPc t = false := by
    rw [← Bool.not_eq_true, ← not_badTarget_iff]; simp only [not_not]; exact h
  simp [writePc, this, raise]

/-- The checked `pc` write either lands or faults. -/
theorem writePc_cases (t : Nat) (s : State) :
    (legalPc t = true ∧ writePc t s = .next { s with pc := BitVec.ofNat 16 t }) ∨
    (badTarget t ∧ writePc t s = .fault (.outOfRangeAccess s)) := by
  by_cases h : badTarget t
  · exact .inr ⟨h, writePc_of_bad s h⟩
  · exact .inl ⟨(not_badTarget_iff t).1 h, writePc_of_legal s ((not_badTarget_iff t).1 h)⟩

theorem jumpsTo_writePc (t : Nat) (s : State) : jumpsTo (writePc t s) s t := by
  refine ⟨fun h => ⟨_, writePc_of_legal s ((not_badTarget_iff t).1 h), rfl, ?_⟩, writePc_of_bad s⟩
  have := (legalPc_iff t).1 ((not_badTarget_iff t).1 h)
  simp; omega

theorem skipIf_true (s : State) : skipIf true s = writePc (s.pc.toNat + 2) s := by simp [skipIf, skip]

theorem skipIf_false (s : State) : skipIf false s = .next s := by simp [skipIf]

theorem skipsWhen_skipIf (c : Prop) [Decidable c] (s : State) : skipsWhen (skipIf (decide c) s) s c := by
  constructor <;> intro h
  · simp only [h, decide_true, skipIf_true]; exact jumpsTo_writePc _ _
  · simp [h, skipIf_false]

/-- A conditional skip answers one of three things. -/
theorem skipIf_cases (c : Bool) (s : State) :
    (c = false ∧ skipIf c s = .next s) ∨
    (c = true ∧ legalPc (s.pc.toNat + 2) = true ∧
      skipIf c s = .next { s with pc := BitVec.ofNat 16 (s.pc.toNat + 2) }) ∨
    (c = true ∧ badTarget (s.pc.toNat + 2) ∧ skipIf c s = .fault (.outOfRangeAccess s)) := by
  cases c
  · exact .inl ⟨rfl, skipIf_false s⟩
  · rw [skipIf_true]
    rcases writePc_cases (s.pc.toNat + 2) s with h | h
    · exact .inr (.inl ⟨rfl, h⟩)
    · exact .inr (.inr ⟨rfl, h⟩)

/-! ## The gate -/

theorem whenSuper_on {s : State} (o : Out) (h : s.cfg.superEnabled = true) : whenSuper s o = o := by
  simp [whenSuper, h]

theorem whenSuper_off {s : State} (o : Out) (h : s.cfg.superEnabled = false) :
    whenSuper s o = .fault (.invalidOpcode s) := by
  simp [whenSuper, h, raise]

/-! ## Register banks -/

theorem getElem_overwrite (bs : List Byte) (bank : Vector Byte 16) (k : Nat) (r : Nat) (hr : r < 16) :
    (overwrite bank k bs)[r] = if k ≤ r then bs.getD (r - k) bank[r] else bank[r] := by
  induction bs generalizing bank k with
  | nil => simp [overwrite]
  | cons b bs ih =>
    rw [overwrite, ih]
    by_cases h : k + 1 ≤ r
    · have hs : r - k = (r - (k + 1)) + 1 := by omega
      rw [if_pos h, if_pos (by omega), hs, List.getD_cons_succ, Vector.getElem_setIfInBounds_ne _ (by omega)]
    · rw [if_neg h]
      by_cases h' : k = r
      · subst h'; simp
      · rw [if_neg (by omega), Vector.getElem_setIfInBounds_ne _ h']

theorem firstRegs_length (bank : Vector Byte 16) (x : Nib) : (firstRegs bank x).length = x.val + 1 := by
  simp [firstRegs]

theorem firstRegs_getD (bank : Vector Byte 16) (x r : Nib) (b : Byte) :
    (firstRegs bank x).getD r.val b = if r ≤ x then bank[r] else b := by
  have := r.isLt
  simp only [firstRegs, List.getD_eq_getElem?_getD, List.getElem?_take, Fin.le_def]
  by_cases h : r.val ≤ x.val
  · rw [if_pos (by omega), if_pos h]
    simp
  · rw [if_neg (by omega), if_neg h]; rfl

/-- A bank overwritten with the first registers of another. -/
theorem getElem_overwrite_firstRegs (bank other : Vector Byte 16) (x r : Nib) :
    (overwrite bank 0 (firstRegs other x))[r] = if r ≤ x then other[r] else bank[r] := by
  have h := getElem_overwrite (firstRegs other x) bank 0 r.val r.isLt
  rw [if_pos (Nat.zero_le _), Nat.sub_zero, firstRegs_getD] at h
  exact h

/-! ## Memory transfers -/

theorem memRead_eq_some {a : Nat} {s : State} (h : a ≤ 0xFFF) : memRead a s = some (s.peek a) := by
  simp [memRead]; omega

theorem memRead_eq_none {a : Nat} {s : State} (h : 0xFFF < a) : memRead a s = none := by
  simp [memRead, h]

/-- A read of several bytes: all of them, or none when one address is out of range. -/
theorem memReads_eq (a n : Nat) (s : State) :
    memReads a n s = if n = 0 ∨ a + (n - 1) ≤ 0xFFF then some ((List.range n).map fun k => s.peek (a + k)) else none := by
  induction n generalizing a with
  | zero => simp [memReads]
  | succ n ih =>
    rw [memReads, ih]
    by_cases h : a + n ≤ 0xFFF
    · rw [memRead_eq_some (by omega), if_pos (by omega), if_pos (by omega)]
      simp only [List.range_succ_eq_map, List.map_cons, List.map_map, Nat.add_zero]
      congr 2
      apply List.map_congr_left
      intro k _
      simp only [Function.comp]
      congr 1; omega
    · by_cases hn : n = 0
      · subst hn
        rw [memRead_eq_none (a := a) (by omega), if_neg (c := 0 + 1 = 0 ∨ _) (by omega)]
      · rw [if_neg (by omega), if_neg (by omega)]
        cases memRead a s <;> rfl

theorem memWrites_of_window {a : Nat} {bs : List Byte} (s : State) (h : 0x200 ≤ a) (h' : a + bs.length ≤ 0x1000) :
    memWrites a bs s = .next (s.poke a bs) := by
  rw [memWrites, if_pos]
  rw [List.all_eq_true]
  intro k hk
  have := List.mem_range.1 hk
  simp [storable]; omega

theorem memWrites_of_bad {a : Nat} {bs : List Byte} (s : State) (hb : bs ≠ [])
    (h : a < 0x200 ∨ 0x1000 < a + bs.length) : memWrites a bs s = .fault (.outOfRangeAccess s) := by
  have hl : 0 < bs.length := List.length_pos_iff.2 hb
  rw [memWrites, if_neg]
  · rfl
  · rw [List.all_eq_true]
    intro hall
    rcases h with h | h
    · have := hall 0 (List.mem_range.2 hl)
      simp [storable] at this; omega
    · have := hall (bs.length - 1) (List.mem_range.2 (by omega))
      simp [storable] at this; omega

/-- A store of at least one byte either lands whole or faults with nothing stored. -/
theorem memWrites_cases (a : Nat) (bs : List Byte) (s : State) (hb : bs ≠ []) :
    (0x200 ≤ a ∧ a + bs.length ≤ 0x1000 ∧ memWrites a bs s = .next (s.poke a bs)) ∨
    ((a < 0x200 ∨ 0x1000 < a + bs.length) ∧ memWrites a bs s = .fault (.outOfRangeAccess s)) := by
  by_cases h : a < 0x200 ∨ 0x1000 < a + bs.length
  · exact .inr ⟨h, memWrites_of_bad s hb h⟩
  · exact .inl ⟨by omega, by omega, memWrites_of_window s (by omega) (by omega)⟩

/-! ## Writing registers, as the claims say it -/

theorem writesRegister_setV (s : State) (x : Nib) (b : Byte) : writesRegister (.next (s.setV x b)) s x b :=
  ⟨_, rfl, rfl, fun r => State.getV_setV s x r b⟩

theorem writesResultAndFlag_setFlag (s : State) (x : Nib) (b : Byte) (c : Bool) :
    writesResultAndFlag (.next ((s.setV x b).setFlag c)) s x b c := by
  refine ⟨_, rfl, rfl, fun r => ?_⟩
  rw [State.getV_setFlag, State.getV_setV]; rfl

/-! ## Fetch -/

/-- With `pc` below the last slot, fetch, advance and decode come down to decoding the word at `pc`. -/
theorem fetchDecode_eq {s : State} (h : legalPc s.pc.toNat = true) (h' : s.pc.toNat ≤ 0xFFC) :
    fetchDecode s =
      match decodeWord s.cfg.superEnabled (wordOfBytes (s.peek s.pc.toNat) (s.peek (s.pc.toNat + 1))) with
      | .error _ => .error (.invalidOpcode s.advanced)
      | .ok i => .ok (i, s.advanced) := by
  have hp := (legalPc_iff _).1 h
  have : legalPc (s.pc.toNat + 2) = true := (legalPc_iff _).2 (by omega)
  simp only [fetchDecode, fetch, memRead_eq_some (s := s) (a := s.pc.toNat) (by omega),
    memRead_eq_some (s := s) (a := s.pc.toNat + 1) (by omega), this, if_true]
  all_goals rfl

theorem fetchDecode_top {s : State} (h : s.pc = 0xFFE) : fetchDecode s = .error (.outOfRangeAccess s) := by
  have hp : s.pc.toNat = 0xFFE := by rw [h]; rfl
  simp only [fetchDecode, fetch, hp, memRead_eq_some (s := s) (a := 0xFFE) (by omega),
    memRead_eq_some (s := s) (a := 0xFFE + 1) (by omega)]
  rw [if_neg (by decide)]

/-- The state an instruction starts from is always the advanced one, and the advance was legal. -/
theorem fetchDecode_ok {s s' : State} {i : Instr} (h : fetchDecode s = .ok (i, s')) :
    s' = s.advanced ∧ legalPc (s.pc.toNat + 2) = true := by
  unfold fetchDecode at h
  split at h
  · exact absurd h (by simp)
  · split at h
    · rename_i hp
      split at h
      · exact absurd h (by simp)
      · simp only [Except.ok.injEq, Prod.mk.injEq] at h
        exact ⟨h.2.symm, hp⟩
    · exact absurd h (by simp)

/-- A fetch fault leaves the state as it was or, for an invalid word, advanced. -/
theorem fetchDecode_error {s : State} {f : Fault} (h : fetchDecode s = .error f) :
    f = .outOfRangeAccess s ∨ (f = .invalidOpcode s.advanced ∧ legalPc (s.pc.toNat + 2) = true) := by
  unfold fetchDecode at h
  split at h
  · exact .inl (by simpa using h.symm)
  · split at h
    · rename_i hp
      split at h
      · exact .inr ⟨by simpa using h.symm, hp⟩
      · exact absurd h (by simp)
    · exact .inl (by simpa using h.symm)

theorem step_of_waiting {s : State} (h : s.waiting = true) : step s = .next (keyWaitCheck s) := by
  simp [step, h]

theorem step_of_ok {s s' : State} {i : Instr} (hw : s.waiting = false) (h : fetchDecode s = .ok (i, s')) :
    step s = exec i s' := by
  simp [step, hw, h]

theorem step_of_error {s : State} {f : Fault} (hw : s.waiting = false) (h : fetchDecode s = .error f) :
    step s = .fault f := by
  simp [step, hw, h]

/-- What a step can be: the key-wait check, a fault before the instruction, or the instruction. -/
theorem step_cases (s : State) :
    (s.waiting = true ∧ step s = .next (keyWaitCheck s)) ∨
    (s.waiting = false ∧ ∃ f, fetchDecode s = .error f ∧ step s = .fault f) ∨
    (s.waiting = false ∧ ∃ i, fetchDecode s = .ok (i, s.advanced) ∧ legalPc (s.pc.toNat + 2) = true ∧
      step s = exec i s.advanced) := by
  cases hw : s.waiting
  · cases hf : fetchDecode s with
    | error f => exact .inr (.inl ⟨rfl, f, rfl, step_of_error hw hf⟩)
    | ok p =>
      obtain ⟨i, s'⟩ := p
      obtain ⟨rfl, hp⟩ := fetchDecode_ok hf
      exact .inr (.inr ⟨rfl, i, rfl, hp, step_of_ok hw hf⟩)
  · exact .inl ⟨rfl, step_of_waiting hw⟩

end Sys2Proof.Machine
end

