-- ==== Sys2Proof/Laws/Display.lean ====
section
/-! SUPPORT. Pixels: what flipping, blanking, scrolling and drawing do to each pixel of a framebuffer. -/

namespace Sys2Proof.Machine

/-! ## Pixels -/

/-- A flat index splits into a row and a column. -/
theorem pixelOf_rowcol {w h : Nat} (fb : Frame w h) {r c : Nat} (hr : r < h) (hc : c < w) :
    pixelOf fb (r * w + c) = fb[r].getLsbD c := by
  have h1 : (r * w + c) / w = r := by
    rw [Nat.add_comm, Nat.add_mul_div_right _ _ (by omega), Nat.div_eq_of_lt hc]; omega
  have h2 : (r * w + c) % w = c := by
    rw [Nat.add_comm, Nat.add_mul_mod_self_right, Nat.mod_eq_of_lt hc]
  simp [pixelOf, h1, h2, Vector.getD, hr]

/-- Two framebuffers with the same pixels are the same. -/
theorem frame_ext {w h : Nat} {fb fb' : Frame w h} (hp : ∀ p, p < w * h → pixelOf fb p = pixelOf fb' p) :
    fb = fb' := by
  apply Vector.ext
  intro r hr
  apply BitVec.eq_of_getLsbD_eq
  intro c hc
  have hlt : r * w + c < w * h := by
    calc r * w + c < r * w + w := by omega
      _ = (r + 1) * w := by ring
      _ ≤ h * w := Nat.mul_le_mul_right _ (by omega)
      _ = w * h := Nat.mul_comm ..
  have := hp _ hlt
  rwa [pixelOf_rowcol fb hr hc, pixelOf_rowcol fb' hr hc] at this

@[simp] theorem pixelOf_blankFrame {w h : Nat} (p : Nat) : pixelOf (blankFrame : Frame w h) p = false := by
  simp only [pixelOf, blankFrame]
  by_cases hr : p / w < h
  · rw [getD_of_lt _ _ hr]; simp
  · rw [getD_of_ge _ _ (by omega)]; simp

theorem row_lt {w h p : Nat} (hp : p < w * h) : p / w < h :=
  Nat.div_lt_of_lt_mul hp

theorem width_pos {w h p : Nat} (hp : p < w * h) : 0 < w :=
  Nat.pos_of_ne_zero fun h0 => by subst h0; simp at hp

/-- Flipping a pixel changes that pixel and no other. -/
theorem pixelOf_flipPixel {w h : Nat} (fb : Frame w h) {p q : Nat} (hp : p < w * h) (hq : q < w * h) :
    pixelOf (flipPixel fb p) q = if q = p then !pixelOf fb q else pixelOf fb q := by
  have hw := width_pos hp
  have hpr := row_lt hp
  have hqr := row_lt hq
  have hpc := Nat.mod_lt p hw
  have hqc := Nat.mod_lt q hw
  simp only [pixelOf, flipPixel, getD_setIfInBounds]
  by_cases hrow : p / w = q / w
  · rw [if_pos ⟨hrow, hqr⟩]
    simp only [BitVec.getLsbD_xor, BitVec.getLsbD_twoPow, hrow]
    by_cases hcol : p % w = q % w
    · have : q = p := by
        rw [← Nat.div_add_mod p w, ← Nat.div_add_mod q w, hrow, hcol]
      rw [if_pos this]
      simp [hcol, hqc]
    · have : q ≠ p := fun h => hcol (by rw [h])
      rw [if_neg this]
      simp [hcol]
  · have : q ≠ p := fun h => hrow (by rw [h])
    rw [if_neg (fun h => hrow h.1), if_neg this]

/-! ## XOR of a list of pixels -/

theorem xorPixels_pixel {w h : Nat} (ps : List Nat) (fb : Frame w h) (c : Bool) (hps : ∀ p ∈ ps, p < w * h)
    (hn : ps.Nodup) {q : Nat} (hq : q < w * h) :
    pixelOf (xorPixels ps fb c).1 q = if q ∈ ps then !pixelOf fb q else pixelOf fb q := by
  induction ps generalizing fb c with
  | nil => simp [xorPixels]
  | cons p ps ih =>
    rw [List.nodup_cons] at hn
    rw [xorPixels, ih _ _ (fun p' hp' => hps p' (by simp [hp'])) hn.2,
      pixelOf_flipPixel fb (hps p (by simp)) hq]
    by_cases h : q = p
    · subst h
      simp [hn.1]
    · simp [h]

theorem xorPixels_collision {w h : Nat} (ps : List Nat) (fb : Frame w h) (c : Bool) (hps : ∀ p ∈ ps, p < w * h)
    (hn : ps.Nodup) : (xorPixels ps fb c).2 = (c || ps.any fun p => pixelOf fb p) := by
  induction ps generalizing fb c with
  | nil => simp [xorPixels]
  | cons p ps ih =>
    rw [List.nodup_cons] at hn
    have hany : (ps.any fun q => pixelOf (flipPixel fb p) q) = ps.any fun q => pixelOf fb q := by
      rw [Bool.eq_iff_iff, List.any_eq_true, List.any_eq_true]
      refine exists_congr fun q => and_congr_right fun hq => ?_
      have : q ≠ p := fun h => hn.1 (h ▸ hq)
      rw [pixelOf_flipPixel fb (hps p (by simp)) (hps q (by simp [hq])), if_neg this]
    rw [xorPixels, ih _ _ (fun p' hp' => hps p' (by simp [hp'])) hn.2, List.any_cons, Bool.or_assoc, hany]

/-! ## The pixels of a sprite -/

theorem mem_rowTargets (w h x y : Nat) (row : Byte) (p : Nat) :
    p ∈ rowTargets w h x y row ↔ ∃ b, b < 8 ∧ row.getLsbD (7 - b) = true ∧ p = (y * w + (x + b)) % (w * h) := by
  simp only [rowTargets, List.mem_map, List.mem_filter, List.mem_range]
  constructor
  · rintro ⟨b, ⟨hb, hbit⟩, rfl⟩; exact ⟨b, hb, hbit, rfl⟩
  · rintro ⟨b, hb, hbit, rfl⟩; exact ⟨b, ⟨hb, hbit⟩, rfl⟩

theorem mem_spriteTargets (w h x y : Nat) (rows : List Byte) (p : Nat) :
    p ∈ spriteTargets w h x y rows ↔
      ∃ r b, r < rows.length ∧ b < 8 ∧ (rows.getD r 0).getLsbD (7 - b) = true ∧
        p = ((y + r) * w + (x + b)) % (w * h) := by
  induction rows generalizing y with
  | nil => simp [spriteTargets]
  | cons row rows ih =>
    rw [spriteTargets, List.mem_append, mem_rowTargets, ih]
    constructor
    · rintro (⟨b, hb, hbit, rfl⟩ | ⟨r, b, hr, hb, hbit, rfl⟩)
      · exact ⟨0, b, by simp, hb, by simpa using hbit, by simp⟩
      · exact ⟨r + 1, b, by simpa using hr, hb, by simpa using hbit, by rw [show y + (r + 1) = y + 1 + r by omega]⟩
    · rintro ⟨r, b, hr, hb, hbit, rfl⟩
      cases r with
      | zero => exact .inl ⟨b, hb, by simpa using hbit, by simp⟩
      | succ r =>
        exact .inr ⟨r, b, by simpa using hr, hb, by simpa using hbit, by rw [show y + (r + 1) = y + 1 + r by omega]⟩

/-- Adding to a common base and reducing is injective on a span shorter than the modulus. -/
theorem add_mod_inj {base i j n : Nat} (hi : i < n) (hj : j < n) (h : (base + i) % n = (base + j) % n) : i = j := by
  have h' : i ≡ j [MOD n] := Nat.ModEq.add_left_cancel' base h
  rw [Nat.ModEq, Nat.mod_eq_of_lt hi, Nat.mod_eq_of_lt hj] at h'
  exact h'

/-- No two bits of one sprite land on the same pixel (spec/46_display_draw.md R216). -/
theorem spriteTargets_nodup (w h x y : Nat) (rows : List Byte) (hw : 8 ≤ w) (hl : rows.length ≤ h) :
    (spriteTargets w h x y rows).Nodup := by
  induction rows generalizing y h with
  | nil => simp [spriteTargets]
  | cons row rows ih =>
    simp only [List.length_cons] at hl
    have hN : w * (rows.length + 1) ≤ w * h := Nat.mul_le_mul_left _ hl
    rw [spriteTargets, List.nodup_append]
    refine ⟨?_, ih h (y + 1) (by omega), ?_⟩
    · rw [rowTargets]
      apply List.Nodup.map_on
      · intro i hi j hj hij
        have hi := List.mem_range.1 (List.mem_of_mem_filter hi)
        have hj := List.mem_range.1 (List.mem_of_mem_filter hj)
        rw [← Nat.add_assoc, ← Nat.add_assoc] at hij
        exact add_mod_inj (by nlinarith) (by nlinarith) hij
      · exact List.Nodup.filter _ List.nodup_range
    · intro p hp q hq hpq
      subst hpq
      obtain ⟨i, hi, -, h1⟩ := (mem_rowTargets ..).1 hp
      obtain ⟨r, j, hr, hj, -, h2⟩ := (mem_spriteTargets ..).1 hq
      rw [h1, ← Nat.add_assoc,
        show (y + 1 + r) * w + (x + j) = y * w + x + ((r + 1) * w + j) by ring] at h2
      have hr' : (r + 1) * w + j < w * (rows.length + 1) := by nlinarith
      have := add_mod_inj (by nlinarith) (by omega) h2
      nlinarith

theorem spriteTargets_lt (w h x y : Nat) (rows : List Byte) (hwh : 0 < w * h) :
    ∀ p ∈ spriteTargets w h x y rows, p < w * h := by
  intro p hp
  obtain ⟨r, b, -, -, -, rfl⟩ := (mem_spriteTargets ..).1 hp
  exact Nat.mod_lt _ hwh

/-! ## Scrolling -/

theorem pixelOf_scrollDown {w h : Nat} (n : Nat) (fb : Frame w h) {r c : Nat} (hr : r < h) (hc : c < w) :
    pixelOf (scrollDown n fb) ((r + n) % h * w + c) = pixelOf fb (r * w + c) := by
  have hh : 0 < h := by omega
  rw [pixelOf_rowcol _ (Nat.mod_lt _ hh) hc, pixelOf_rowcol _ hr hc]
  simp only [scrollDown, Vector.getElem_ofFn]
  have hn := Nat.mod_lt n hh
  have : ((r + n) % h + (h - n % h)) % h = r := by
    rw [Nat.add_mod r n h, Nat.mod_eq_of_lt hr]
    by_cases hlt : r + n % h < h
    · rw [Nat.mod_eq_of_lt hlt, show r + n % h + (h - n % h) = r + h by omega, Nat.add_mod_right,
        Nat.mod_eq_of_lt hr]
    · rw [Nat.mod_eq_sub_mod (a := r + n % h) (by omega), Nat.mod_eq_of_lt (show r + n % h - h < h by omega),
        show r + n % h - h + (h - n % h) = r by omega, Nat.mod_eq_of_lt hr]
  simp only [this]
  simp [Vector.getD, hr]

theorem scrollDown_zero {w h : Nat} (fb : Frame w h) : scrollDown 0 fb = fb := by
  apply Vector.ext
  intro r hr
  simp [scrollDown, Vector.getD, Nat.mod_eq_of_lt hr, hr]

theorem pixelOf_scrollRight {w h : Nat} (k : Nat) (fb : Frame w h) {r c : Nat} (hr : r < h) (hc : c < w) :
    pixelOf (scrollRight k fb) (r * w + (c + k) % w) = pixelOf fb (r * w + c) := by
  have hw : 0 < w := by omega
  have hk := Nat.mod_lt k hw
  rw [pixelOf_rowcol _ hr (Nat.mod_lt _ hw), pixelOf_rowcol _ hr hc]
  simp only [scrollRight, Vector.getElem_ofFn, BitVec.getLsbD_rotateLeft, Nat.mod_lt _ hw]
  rw [Nat.add_mod c k w, Nat.mod_eq_of_lt hc]
  rw [getD_of_lt _ _ hr]
  by_cases hlt : c + k % w < w
  · rw [Nat.mod_eq_of_lt hlt]
    simp
  · rw [Nat.mod_eq_sub_mod (by omega), Nat.mod_eq_of_lt (show c + k % w - w < w by omega)]
    simp only [show c + k % w - w < k % w by omega, decide_true, cond_true]
    congr 1; omega

theorem pixelOf_scrollLeft {w h : Nat} (k : Nat) (fb : Frame w h) {r c : Nat} (hr : r < h) (hc : c < w) :
    pixelOf (scrollLeft k fb) (r * w + (c + w - k % w) % w) = pixelOf fb (r * w + c) := by
  have hw : 0 < w := by omega
  have hk := Nat.mod_lt k hw
  rw [pixelOf_rowcol _ hr (Nat.mod_lt _ hw), pixelOf_rowcol _ hr hc]
  simp only [scrollLeft, Vector.getElem_ofFn, BitVec.getLsbD_rotateRight, Nat.mod_lt _ hw]
  rw [getD_of_lt _ _ hr]
  by_cases hlt : c + w - k % w < w
  · rw [Nat.mod_eq_of_lt hlt]
    by_cases h0 : c + w - k % w < w - k % w
    · omega
    · simp only [h0, decide_false, cond_false]
      simp
      congr 1; omega
  · rw [Nat.mod_eq_sub_mod (by omega), Nat.mod_eq_of_lt (show c + w - k % w - w < w by omega)]
    simp only [show c + w - k % w - w < w - k % w by omega, decide_true, cond_true]
    congr 1; omega

end Sys2Proof.Machine
end

