-- ==== Sys2Proof/Laws/Exec.lean ====
section
/-! SUPPORT. For each meaning that can fault, one lemma that lists everything it can answer and when; the other meanings
answer the next state their definition shows. -/

namespace Sys2Proof.Machine

/-- `RET` finds an empty stack, a return address it may take, or one it may not. -/
theorem execRet_cases (s : State) :
    (s.SP = 0 ∧ execRet s = .fault (.stackUnderflow s)) ∨
    (s.SP ≠ 0 ∧ legalPc s.top.toNat = true ∧ execRet s = .next { s with pc := s.top, SP := s.SP - 1 }) ∨
    (s.SP ≠ 0 ∧ badTarget s.top.toNat ∧ execRet s = .fault (.outOfRangeAccess s)) := by
  by_cases h : s.SP = 0
  · exact .inl ⟨h, by rw [execRet, if_pos h]; rfl⟩
  · rcases writePc_cases s.top.toNat s with ⟨hl, hw⟩ | ⟨hl, hw⟩
    · refine .inr (.inl ⟨h, hl, ?_⟩)
      rw [execRet, if_neg h, hw, BitVec.ofNat_toNat, BitVec.setWidth_eq]
      simp only [andThen, pop]
      rw [if_neg h]
    · exact .inr (.inr ⟨h, hl, by rw [execRet, if_neg h, hw]; rfl⟩)

/-- `CALL` finds a full stack, a bad target, or does both of its writes. -/
theorem execCall_cases (nnn : Addr) (s : State) :
    (16 ≤ s.SP.toNat ∧ execCall nnn s = .fault (.stackOverflow s)) ∨
    (s.SP.toNat < 16 ∧ badTarget nnn.toNat ∧ execCall nnn s = .fault (.outOfRangeAccess s)) ∨
    (s.SP.toNat < 16 ∧ legalPc nnn.toNat = true ∧
      execCall nnn s = .next { s with
        stack := s.stack.setIfInBounds s.SP.toNat s.pc, SP := s.SP + 1, pc := BitVec.ofNat 16 nnn.toNat }) := by
  by_cases h : s.SP.toNat ≥ 16
  · exact .inl ⟨h, by rw [execCall, if_pos h]; rfl⟩
  · by_cases hb : badTarget nnn.toNat
    · refine .inr (.inl ⟨by omega, hb, ?_⟩)
      have hl : ¬legalPc nnn.toNat = true := fun hl => (not_badTarget_iff _).2 hl hb
      rw [execCall, if_neg h, if_neg hl]; rfl
    · have hl := (not_badTarget_iff _).1 hb
      refine .inr (.inr ⟨by omega, hl, ?_⟩)
      rw [execCall, if_neg h, if_pos hl, push, if_neg h]
      simp only [andThen, writePc, hl, if_true]

/-- The key a register names: one of the sixteen, or none. -/
theorem keyNamed_of_lt {x : Nib} {s : State} (h : (s.getV x).toNat < 16) :
    keyNamed x s = some s.key[(s.getV x).toNat] := by
  simp [keyNamed, h]

theorem keyNamed_of_ge {x : Nib} {s : State} (h : 16 ≤ (s.getV x).toNat) : keyNamed x s = none := by
  simp [keyNamed, h]

theorem execSkp_of_lt {x : Nib} {s : State} (h : (s.getV x).toNat < 16) :
    execSkp x s = skipIf s.key[(s.getV x).toNat] s := by
  rw [execSkp, keyNamed_of_lt h]

theorem execSknp_of_lt {x : Nib} {s : State} (h : (s.getV x).toNat < 16) :
    execSknp x s = skipIf (!s.key[(s.getV x).toNat]) s := by
  rw [execSknp, keyNamed_of_lt h]

theorem execSkp_of_ge {x : Nib} {s : State} (h : 16 ≤ (s.getV x).toNat) :
    execSkp x s = .fault (.outOfRangeAccess s) := by
  rw [execSkp, keyNamed_of_ge h]; rfl

theorem execSknp_of_ge {x : Nib} {s : State} (h : 16 ≤ (s.getV x).toNat) :
    execSknp x s = .fault (.outOfRangeAccess s) := by
  rw [execSknp, keyNamed_of_ge h]; rfl

/-- The sprite rows `DRW` reads. -/
def spriteRows (s : State) (n : Nib) : List Byte := (List.range n.val).map fun k => s.peek (s.I.toNat + k)

/-- The pixels `DRW` inverts. -/
def drawTargets (s : State) (x y n : Nib) : List Nat :=
  spriteTargets s.width s.height (s.getV x).toNat (s.getV y).toNat (spriteRows s n)

theorem execDrw_of_bad {s : State} {x y n : Nib} (h : n ≠ 0 ∧ 0xFFF < s.I.toNat + (n.val - 1)) :
    execDrw x y n s = .fault (.outOfRangeAccess s) := by
  have hn : n.val ≠ 0 := fun h0 => h.1 (Fin.ext h0)
  rw [execDrw, drawSprite, memReads_eq, if_neg (by omega)]; rfl

theorem execDrw_of_good {s : State} {x y n : Nib} (h : n = 0 ∨ s.I.toNat + (n.val - 1) ≤ 0xFFF) :
    execDrw x y n s =
      .next ((s.plot (drawTargets s x y n)).1.setFlag (s.plot (drawTargets s x y n)).2) := by
  have hn : n.val = 0 ∨ s.I.toNat + (n.val - 1) ≤ 0xFFF := h.imp_left fun h0 => by rw [h0]; rfl
  rw [execDrw, drawSprite, memReads_eq, if_pos hn]; rfl

theorem spriteRows_length (s : State) (n : Nib) : (spriteRows s n).length = n.val := by simp [spriteRows]

/-- The pixels of a draw are the ones a sprite bit lands on. -/
theorem mem_drawTargets (s : State) (x y n : Nib) (p : Nat) : p ∈ drawTargets s x y n ↔ spriteCovers s x y n p := by
  rw [drawTargets, mem_spriteTargets, spriteRows_length, spriteCovers]
  refine exists_congr fun r => exists_congr fun b => and_congr_right fun hr => ?_
  have : (spriteRows s n).getD r 0 = s.peek (s.I.toNat + r) := by
    simp [spriteRows, List.getD_eq_getElem?_getD, hr]
  rw [this]

theorem State.size_pos (s : State) : 0 < s.width * s.height := by
  unfold State.width State.height; split <;> decide

theorem drawTargets_lt (s : State) (x y n : Nib) : ∀ p ∈ drawTargets s x y n, p < s.width * s.height :=
  spriteTargets_lt _ _ _ _ _ s.size_pos

theorem drawTargets_nodup (s : State) (x y n : Nib) : (drawTargets s x y n).Nodup := by
  apply spriteTargets_nodup
  · unfold State.width; split <;> decide
  · rw [spriteRows_length]
    have := n.isLt
    unfold State.height; split <;> omega

/-- Plotting distinct pixels inside the screen inverts them and no other pixel. -/
theorem State.pixel_plot (s : State) (ps : List Nat) (hps : ∀ p ∈ ps, p < s.width * s.height) (hn : ps.Nodup)
    {q : Nat} (hq : q < s.width * s.height) :
    (s.plot ps).1.pixel q = if q ∈ ps then !s.pixel q else s.pixel q := by
  unfold State.width State.height at hps hq
  unfold State.plot State.pixel
  split
  · rename_i h
    simp only [h, if_true] at hps hq ⊢
    exact xorPixels_pixel ps s.fbHi false hps hn hq
  · rename_i h
    simp only [h, if_false, Bool.false_eq_true] at hps hq ⊢
    exact xorPixels_pixel ps s.fbLo false hps hn hq

/-- The collision flag says whether one of the pixels was lit. -/
theorem State.plot_collision (s : State) (ps : List Nat) (hps : ∀ p ∈ ps, p < s.width * s.height) (hn : ps.Nodup) :
    (s.plot ps).2 = ps.any fun p => s.pixel p := by
  unfold State.width State.height at hps
  unfold State.plot State.pixel
  split
  · rename_i h
    simp only [h, if_true] at hps ⊢
    simpa using xorPixels_collision ps s.fbHi false hps hn
  · rename_i h
    simp only [h, if_false, Bool.false_eq_true] at hps ⊢
    simpa using xorPixels_collision ps s.fbLo false hps hn

theorem execLdXMem_of_good {s : State} {x : Nib} (h : s.I.toNat + x.val ≤ 0xFFF) :
    execLdXMem x s =
      .next { s with V := overwrite s.V 0 ((List.range (x.val + 1)).map fun k => s.peek (s.I.toNat + k)) } := by
  rw [execLdXMem, memReads_eq, if_pos (by omega)]

theorem execLdXMem_of_bad {s : State} {x : Nib} (h : 0xFFF < s.I.toNat + x.val) :
    execLdXMem x s = .fault (.outOfRangeAccess s) := by
  rw [execLdXMem, memReads_eq, if_neg (by omega)]; rfl

theorem execLdBX_cases (s : State) (x : Nib) :
    (0x200 ≤ s.I.toNat ∧ s.I.toNat + 2 ≤ 0xFFF ∧
      execLdBX x s = .next (s.poke s.I.toNat (decimalDigits (s.getV x)))) ∨
    ((s.I.toNat < 0x200 ∨ 0xFFF < s.I.toNat + 2) ∧ execLdBX x s = .fault (.outOfRangeAccess s)) := by
  rcases memWrites_cases s.I.toNat (decimalDigits (s.getV x)) s (by simp [decimalDigits]) with ⟨h, h', e⟩ | ⟨h, e⟩
  · exact .inl ⟨h, by simp [decimalDigits] at h'; omega, e⟩
  · exact .inr ⟨by simp [decimalDigits] at h; omega, e⟩

theorem execLdMemX_cases (s : State) (x : Nib) :
    (0x200 ≤ s.I.toNat ∧ s.I.toNat + x.val ≤ 0xFFF ∧
      execLdMemX x s = .next (s.poke s.I.toNat (firstRegs s.V x))) ∨
    ((s.I.toNat < 0x200 ∨ 0xFFF < s.I.toNat + x.val) ∧ execLdMemX x s = .fault (.outOfRangeAccess s)) := by
  have hne : firstRegs s.V x ≠ [] := List.length_pos_iff.1 (by rw [firstRegs_length]; omega)
  have hl := firstRegs_length s.V x
  rcases memWrites_cases s.I.toNat (firstRegs s.V x) s hne with ⟨h, h', e⟩ | ⟨h, e⟩
  · exact .inl ⟨h, by omega, e⟩
  · exact .inr ⟨by omega, e⟩

/-! ## Everything an instruction can do -/

/-- What a next state can be, instruction by instruction: the one update, and the condition the instruction checked. -/
def nextShape (s t : State) : Instr → Prop
  | .halt => t = s
  | .cls _ => t = clearScreen s
  | .ret _ => t = { s with pc := s.top, SP := s.SP - 1 } ∧ s.SP ≠ 0 ∧ legalPc s.top.toNat = true
  | .scd _ n => s.cfg.superEnabled = true ∧ t = s.onActive (scrollDown n.val)
  | .scr _ => s.cfg.superEnabled = true ∧ t = s.onActive (scrollRight (scrollAmount s))
  | .scl _ => s.cfg.superEnabled = true ∧ t = s.onActive (scrollLeft (scrollAmount s))
  | .exit _ => t = s
  | .low _ => t = { s with highRes := false }
  | .high _ => s.cfg.superEnabled = true ∧ t = { s with highRes := true }
  | .sys n | .jp n => t = { s with pc := BitVec.ofNat 16 n.toNat } ∧ legalPc n.toNat = true
  | .jpV0 n => t = { s with pc := BitVec.ofNat 16 (offsetTarget n s) } ∧ legalPc (offsetTarget n s) = true
  | .call n =>
    t = { s with stack := s.stack.setIfInBounds s.SP.toNat s.pc, SP := s.SP + 1, pc := BitVec.ofNat 16 n.toNat } ∧
      legalPc n.toNat = true ∧ s.SP.toNat < 16
  | .seKk _ _ | .sneKk _ _ | .seXy _ _ | .sneXy _ _ | .skp _ | .sknp _ =>
    t = s ∨ (t = { s with pc := BitVec.ofNat 16 (s.pc.toNat + 2) } ∧ legalPc (s.pc.toNat + 2) = true)
  | .ldKk x _ | .addKk x _ | .ldXy x _ | .or x _ | .and x _ | .xor x _ | .ldXDt x => ∃ b, t = s.setV x b
  | .addXy x _ | .sub x _ | .subn x _ | .shr x _ | .shl x _ => ∃ b c, t = (s.setV x b).setFlag c
  | .ldI n => t = s.setI n.toNat
  | .rnd x _ => ∃ b, t = ({ s with draws := s.draws + 1 } : State).setV x b
  | .drw _ _ _ => ∃ ps c, t = (s.plot ps).1.setFlag c
  | .ldXK x => t = { s with waiting := true, waitReg := x, latchValid := false }
  | .ldDtX x => t = { s with DT := s.getV x }
  | .ldStX x => t = { s with ST := s.getV x }
  | .addIX _ => ∃ v c, t = (s.setI v).setFlag c
  | .ldFX _ => ∃ v, t = s.setI v
  | .ldBX _ | .ldMemX _ => ∃ bs, t = s.poke s.I.toNat bs ∧ 0x200 ≤ s.I.toNat ∧ s.I.toNat + bs.length ≤ 0x1000
  | .ldXMem x => ∃ bs, bs.length = x.val + 1 ∧ t = { s with V := overwrite s.V 0 bs }
  | .ldRX x => t = { s with R := overwrite s.R 0 (firstRegs s.V x) }
  | .ldXR x => t = { s with V := overwrite s.V 0 (firstRegs s.R x) }

/-- Inversion: a next state has the instruction's shape. -/
theorem exec_next_shape {i : Instr} {s t : State} (h : exec i s = .next t) : nextShape s t i := by
  have hs : ∀ u, whenSuper s (.next u) = .next t → s.cfg.superEnabled = true ∧ t = u := by
    intro u h; unfold whenSuper at h; split at h
    · simp at h; exact ⟨by assumption, h.symm⟩
    · simp [raise] at h
  have hw : ∀ n, writePc n s = .next t → t = { s with pc := BitVec.ofNat 16 n } ∧ legalPc n = true := by
    intro n h; rcases writePc_cases n s with ⟨hl, e⟩ | ⟨_, e⟩ <;> rw [e] at h <;> simp at h; exact ⟨h.symm, hl⟩
  have hk : ∀ c, skipIf c s = .next t →
      t = s ∨ (t = { s with pc := BitVec.ofNat 16 (s.pc.toNat + 2) } ∧ legalPc (s.pc.toNat + 2) = true) := by
    intro c h; rcases skipIf_cases c s with ⟨_, e⟩ | ⟨_, hl, e⟩ | ⟨_, _, e⟩ <;> rw [e] at h <;> simp at h
    · exact .inl h.symm
    · exact .inr ⟨h.symm, hl⟩
  cases i
  case ret =>
    change execRet s = _ at h
    rcases execRet_cases s with ⟨_, e⟩ | ⟨h1, h2, e⟩ | ⟨_, _, e⟩ <;> rw [e] at h <;> simp at h
    exact ⟨h.symm, h1, h2⟩
  case call nnn =>
    change execCall _ s = _ at h
    rcases execCall_cases nnn s with ⟨_, e⟩ | ⟨_, _, e⟩ | ⟨h1, h2, e⟩ <;>
      rw [e] at h <;> simp only [Host.Outcome.next.injEq, reduceCtorEq] at h
    exact ⟨h.symm, h2, h1⟩
  case skp x =>
    change execSkp x s = _ at h
    by_cases hx : (s.getV x).toNat < 16
    · rw [execSkp_of_lt hx] at h; exact hk _ h
    · rw [execSkp_of_ge (by omega)] at h; simp at h
  case sknp x =>
    change execSknp x s = _ at h
    by_cases hx : (s.getV x).toNat < 16
    · rw [execSknp_of_lt hx] at h; exact hk _ h
    · rw [execSknp_of_ge (by omega)] at h; simp at h
  case drw x y n =>
    change execDrw x y n s = _ at h
    by_cases hx : n ≠ 0 ∧ 0xFFF < s.I.toNat + (n.val - 1)
    · rw [execDrw_of_bad hx] at h; simp at h
    · rw [execDrw_of_good (by by_cases n = 0 <;> simp_all)] at h; simp at h; exact ⟨_, _, h.symm⟩
  case ldXMem x =>
    change execLdXMem x s = _ at h
    by_cases hx : s.I.toNat + x.val ≤ 0xFFF
    · rw [execLdXMem_of_good hx] at h; simp only [Host.Outcome.next.injEq] at h; exact ⟨_, by simp, h.symm⟩
    · rw [execLdXMem_of_bad (by omega)] at h; simp at h
  case ldBX x =>
    change execLdBX x s = _ at h
    rcases execLdBX_cases s x with ⟨a, b, e⟩ | ⟨_, e⟩ <;> rw [e] at h <;> simp at h
    exact ⟨_, h.symm, a, by simp [decimalDigits]; omega⟩
  case ldMemX x =>
    change execLdMemX x s = _ at h
    rcases execLdMemX_cases s x with ⟨a, b, e⟩ | ⟨_, e⟩ <;> rw [e] at h <;> simp at h
    exact ⟨_, h.symm, a, by rw [firstRegs_length]; omega⟩
  case sys n => exact hw _ h
  case jp n => exact hw _ h
  case jpV0 n => exact hw _ h
  case seKk => exact hk _ h
  case sneKk => exact hk _ h
  case seXy => exact hk _ h
  case sneXy => exact hk _ h
  case scd => exact hs _ h
  case scr => exact hs _ h
  case scl => exact hs _ h
  case exit => exact (hs _ h).2
  case low => exact (hs _ h).2
  case high => exact hs _ h
  case ldRX => exact (hs _ h).2
  case ldXR => exact (hs _ h).2
  all_goals simp only [exec, execHalt, execCls, execLdKk, execAddKk, execLdXy, execOr, execAnd, execXor, execAddXy, execSub,
    execShr, execSubn, execShl, execLdI, execRnd, randomInto, execLdXDt, execLdXK, execLdDtX, execLdStX, execAddIX,
    execLdFX, Host.Outcome.next.injEq] at h
  all_goals subst h
  all_goals first | rfl | exact ⟨_, rfl⟩ | exact ⟨_, _, rfl⟩

/-- A fault inside an instruction leaves the state the instruction started from. -/
theorem exec_fault_after {i : Instr} {s : State} {f : Fault} (h : exec i s = .fault f) : f.after = s := by
  have hw : ∀ t, writePc t s = .fault f → f.after = s := by
    intro t h; rcases writePc_cases t s with ⟨_, e⟩ | ⟨_, e⟩ <;> rw [e] at h <;> simp at h; subst h; rfl
  have hs : ∀ t, whenSuper s (.next t) = .fault f → f.after = s := by
    intro t h; unfold whenSuper at h; split at h
    · simp at h
    · simp [raise] at h; subst h; rfl
  have hk : ∀ c, skipIf c s = .fault f → f.after = s := by
    intro c h; rcases skipIf_cases c s with ⟨_, e⟩ | ⟨_, _, e⟩ | ⟨_, _, e⟩ <;> rw [e] at h <;> simp at h; subst h; rfl
  cases i
  case ret =>
    change execRet s = _ at h
    rcases execRet_cases s with ⟨_, e⟩ | ⟨_, _, e⟩ | ⟨_, _, e⟩ <;> rw [e] at h <;> simp at h <;> subst h <;> rfl
  case call nnn =>
    change execCall _ s = _ at h
    rcases execCall_cases nnn s with ⟨_, e⟩ | ⟨_, _, e⟩ | ⟨_, _, e⟩ <;> rw [e] at h <;> simp at h <;> subst h <;> rfl
  case skp x =>
    change execSkp x s = _ at h
    by_cases hx : (s.getV x).toNat < 16
    · rw [execSkp_of_lt hx] at h; exact hk _ h
    · rw [execSkp_of_ge (by omega)] at h; simp at h; subst h; rfl
  case sknp x =>
    change execSknp x s = _ at h
    by_cases hx : (s.getV x).toNat < 16
    · rw [execSknp_of_lt hx] at h; exact hk _ h
    · rw [execSknp_of_ge (by omega)] at h; simp at h; subst h; rfl
  case drw x y n =>
    change execDrw x y n s = _ at h
    by_cases hx : n ≠ 0 ∧ 0xFFF < s.I.toNat + (n.val - 1)
    · rw [execDrw_of_bad hx] at h; simp at h; subst h; rfl
    · rw [execDrw_of_good (by by_cases n = 0 <;> simp_all)] at h; simp at h
  case ldXMem x =>
    change execLdXMem x s = _ at h
    by_cases hx : s.I.toNat + x.val ≤ 0xFFF
    · rw [execLdXMem_of_good hx] at h; simp at h
    · rw [execLdXMem_of_bad (by omega)] at h; simp at h; subst h; rfl
  case ldBX x =>
    change execLdBX x s = _ at h
    rcases execLdBX_cases s x with ⟨_, _, e⟩ | ⟨_, e⟩ <;> rw [e] at h <;> simp at h <;> subst h <;> rfl
  case ldMemX x =>
    change execLdMemX x s = _ at h
    rcases execLdMemX_cases s x with ⟨_, _, e⟩ | ⟨_, e⟩ <;> rw [e] at h <;> simp at h <;> subst h <;> rfl
  case sys n => exact hw _ h
  case jp n => exact hw _ h
  case jpV0 n => exact hw _ h
  case seKk => exact hk _ h
  case sneKk => exact hk _ h
  case seXy => exact hk _ h
  case sneXy => exact hk _ h
  case scd => exact hs _ h
  case scr => exact hs _ h
  case scl => exact hs _ h
  case exit => exact hs _ h
  case low => exact hs _ h
  case high => exact hs _ h
  case ldRX => exact hs _ h
  case ldXR => exact hs _ h
  all_goals exact absurd h (by
    simp [exec, execHalt, execCls, execLdKk, execAddKk, execLdXy, execOr, execAnd, execXor, execAddXy, execSub,
    execShr, execSubn, execShl, execLdI, execRnd, execLdXDt, execLdXK, execLdDtX, execLdStX,
    execAddIX, execLdFX])

end Sys2Proof.Machine
end

