-- ==== Sys2Proof/Laws/PerInstr.lean ====
section
/-! SUPPORT. Per instruction: the round trip of its encoding (spec/30_encoding.md R92, R94, R100). -/

namespace Sys2Proof.Laws.RoundTrip

/-- A well-formed instruction is what its word decodes to, with the gate on; with it off, unless it is Super-CHIP. -/
def Statement (i : Instr) : Prop :=
  wellFormed i = true → decodeWord true (encode i) = .ok i ∧
    decodeWord false (encode i) = (if isSuper i = true then .error .superDisabled else .ok i)

theorem halt : Statement .halt := by
  intro _; decide

theorem cls (ign : Nib) : Statement (.cls ign) := by
  have h := fields_word211 (c := 0x0) (kk := 0xE0) ign (by decide) (by decide)
  have h0 : word211 0x0 ign 0xE0 ≠ 0 := fun h0 => by
    have := word211_toNat (c := 0x0) (by decide) ign.isLt (kk := 0xE0) (by decide)
    rw [h0] at this; simp at this
  have hy : fieldY (word211 0x0 ign 0xE0) ≠ 0xC := fun hy => by rw [hy] at h; simp at h
  intro _
  simp_all [encode, decodeWord, isSuper, decodeClass0]

theorem ret (ign : Nib) : Statement (.ret ign) := by
  have h := fields_word211 (c := 0x0) (kk := 0xEE) ign (by decide) (by decide)
  have h0 : word211 0x0 ign 0xEE ≠ 0 := fun h0 => by
    have := word211_toNat (c := 0x0) (by decide) ign.isLt (kk := 0xEE) (by decide)
    rw [h0] at this; simp at this
  have hy : fieldY (word211 0x0 ign 0xEE) ≠ 0xC := fun hy => by rw [hy] at h; simp at h
  intro _
  simp_all [encode, decodeWord, isSuper, decodeClass0]

theorem scd (ign : Nib) (n : Nib) : Statement (.scd ign n) := by
  have h := fields_word4 (c := 0x0) ign 0xC n (by decide)
  rw [show ((0xC : Nib) : Nat) = 0xC from rfl] at h
  have h0 : word4 0x0 ign 0xC n ≠ 0 := fun h0 => by
    have := word4_toNat (c := 0x0) (by decide) ign.isLt (y := 0xC) (by decide) n.isLt
    rw [h0] at this; simp at this; omega
  have hk : ∀ b : Byte, b.toNat / 16 ≠ 12 → fieldKk (word4 0x0 ign 0xC n) ≠ b := fun b hb h1 => hb (by rw [← h1, h.2.2.2.2]; have := n.isLt; simp; omega)
  intro _
  simp only [encode, decodeWord]
  simp_all [decodeClass0, superOnly, isSuper]

theorem scr (ign : Nib) : Statement (.scr ign) := by
  have h := fields_word211 (c := 0x0) (kk := 0xFB) ign (by decide) (by decide)
  have h0 : word211 0x0 ign 0xFB ≠ 0 := fun h0 => by
    have := word211_toNat (c := 0x0) (by decide) ign.isLt (kk := 0xFB) (by decide)
    rw [h0] at this; simp at this
  have hy : fieldY (word211 0x0 ign 0xFB) ≠ 0xC := fun hy => by rw [hy] at h; simp at h
  intro _
  simp_all [encode, decodeWord, isSuper, decodeClass0, superOnly]

theorem scl (ign : Nib) : Statement (.scl ign) := by
  have h := fields_word211 (c := 0x0) (kk := 0xFC) ign (by decide) (by decide)
  have h0 : word211 0x0 ign 0xFC ≠ 0 := fun h0 => by
    have := word211_toNat (c := 0x0) (by decide) ign.isLt (kk := 0xFC) (by decide)
    rw [h0] at this; simp at this
  have hy : fieldY (word211 0x0 ign 0xFC) ≠ 0xC := fun hy => by rw [hy] at h; simp at h
  intro _
  simp_all [encode, decodeWord, isSuper, decodeClass0, superOnly]

theorem exit (ign : Nib) : Statement (.exit ign) := by
  have h := fields_word211 (c := 0x0) (kk := 0xFD) ign (by decide) (by decide)
  have h0 : word211 0x0 ign 0xFD ≠ 0 := fun h0 => by
    have := word211_toNat (c := 0x0) (by decide) ign.isLt (kk := 0xFD) (by decide)
    rw [h0] at this; simp at this
  have hy : fieldY (word211 0x0 ign 0xFD) ≠ 0xC := fun hy => by rw [hy] at h; simp at h
  intro _
  simp_all [encode, decodeWord, isSuper, decodeClass0, superOnly]

theorem low (ign : Nib) : Statement (.low ign) := by
  have h := fields_word211 (c := 0x0) (kk := 0xFE) ign (by decide) (by decide)
  have h0 : word211 0x0 ign 0xFE ≠ 0 := fun h0 => by
    have := word211_toNat (c := 0x0) (by decide) ign.isLt (kk := 0xFE) (by decide)
    rw [h0] at this; simp at this
  have hy : fieldY (word211 0x0 ign 0xFE) ≠ 0xC := fun hy => by rw [hy] at h; simp at h
  intro _
  simp_all [encode, decodeWord, isSuper, decodeClass0, superOnly]

theorem high (ign : Nib) : Statement (.high ign) := by
  have h := fields_word211 (c := 0x0) (kk := 0xFF) ign (by decide) (by decide)
  have h0 : word211 0x0 ign 0xFF ≠ 0 := fun h0 => by
    have := word211_toNat (c := 0x0) (by decide) ign.isLt (kk := 0xFF) (by decide)
    rw [h0] at this; simp at this
  have hy : fieldY (word211 0x0 ign 0xFF) ≠ 0xC := fun hy => by rw [hy] at h; simp at h
  intro _
  simp_all [encode, decodeWord, isSuper, decodeClass0, superOnly]

theorem sys (nnn : Addr) : Statement (.sys nnn) := by
  have h := fields_word13 (c := 0x0) nnn (by decide)
  intro hw
  simp only [wellFormed, class0Code, Bool.and_eq_true, decide_eq_true_eq, Bool.not_eq_true', Bool.or_eq_false_iff,
    decide_eq_false_iff_not] at hw
  have hk : fieldKk (word13 0x0 nnn.toNat) = nnn.setWidth 8 := BitVec.eq_of_toNat_eq (by simp [h.2.2.1])
  have h0 : word13 0x0 nnn.toNat ≠ 0 := fun h0 => hw.1 (BitVec.eq_of_toNat_eq (by
    have := h.2.2.2.2; rw [h0] at this; simpa using this.symm))
  have hy : fieldY (word13 0x0 nnn.toNat) ≠ 0xC := fun hy => by
    have h2 := h.2.2.2.1
    rw [hy] at h2
    have h3 := hw.2
    simp only [BitVec.toNat_setWidth] at h3
    simp at h2
    omega
  simp_all [encode, decodeWord, isSuper, decodeClass0]

theorem jp (nnn : Addr) : Statement (.jp nnn) := by
  have h := fields_word13 (c := 0x1) nnn (by decide)
  intro _
  simp_all [encode, decodeWord, isSuper]

theorem call (nnn : Addr) : Statement (.call nnn) := by
  have h := fields_word13 (c := 0x2) nnn (by decide)
  intro _
  simp_all [encode, decodeWord, isSuper]

theorem seKk (x : Nib) (kk : Byte) : Statement (.seKk x kk) := by
  have h := fields_word211 (c := 0x3) x (by decide) kk.isLt
  intro _
  simp_all [encode, decodeWord, isSuper]

theorem sneKk (x : Nib) (kk : Byte) : Statement (.sneKk x kk) := by
  have h := fields_word211 (c := 0x4) x (by decide) kk.isLt
  intro _
  simp_all [encode, decodeWord, isSuper]

theorem seXy (x y : Nib) : Statement (.seXy x y) := by
  have h := fields_word4 (c := 0x5) x y 0x0 (by decide)
  intro _
  simp_all [encode, decodeWord, isSuper]

theorem ldKk (x : Nib) (kk : Byte) : Statement (.ldKk x kk) := by
  have h := fields_word211 (c := 0x6) x (by decide) kk.isLt
  intro _
  simp_all [encode, decodeWord, isSuper]

theorem addKk (x : Nib) (kk : Byte) : Statement (.addKk x kk) := by
  have h := fields_word211 (c := 0x7) x (by decide) kk.isLt
  intro _
  simp_all [encode, decodeWord, isSuper]

theorem ldXy (x y : Nib) : Statement (.ldXy x y) := by
  have h := fields_word4 (c := 0x8) x y 0x0 (by decide)
  intro _
  simp_all [encode, decodeWord, isSuper, decodeClass8]

theorem or (x y : Nib) : Statement (.or x y) := by
  have h := fields_word4 (c := 0x8) x y 0x1 (by decide)
  intro _
  simp_all [encode, decodeWord, isSuper, decodeClass8]

theorem and (x y : Nib) : Statement (.and x y) := by
  have h := fields_word4 (c := 0x8) x y 0x2 (by decide)
  intro _
  simp_all [encode, decodeWord, isSuper, decodeClass8]

theorem xor (x y : Nib) : Statement (.xor x y) := by
  have h := fields_word4 (c := 0x8) x y 0x3 (by decide)
  intro _
  simp_all [encode, decodeWord, isSuper, decodeClass8]

theorem addXy (x y : Nib) : Statement (.addXy x y) := by
  have h := fields_word4 (c := 0x8) x y 0x4 (by decide)
  intro _
  simp_all [encode, decodeWord, isSuper, decodeClass8]

theorem sub (x y : Nib) : Statement (.sub x y) := by
  have h := fields_word4 (c := 0x8) x y 0x5 (by decide)
  intro _
  simp_all [encode, decodeWord, isSuper, decodeClass8]

theorem shr (x : Nib) (ign : Nib) : Statement (.shr x ign) := by
  have h := fields_word4 (c := 0x8) x ign 0x6 (by decide)
  intro _
  simp_all [encode, decodeWord, isSuper, decodeClass8]

theorem subn (x y : Nib) : Statement (.subn x y) := by
  have h := fields_word4 (c := 0x8) x y 0x7 (by decide)
  intro _
  simp_all [encode, decodeWord, isSuper, decodeClass8]

theorem shl (x : Nib) (ign : Nib) : Statement (.shl x ign) := by
  have h := fields_word4 (c := 0x8) x ign 0xE (by decide)
  intro _
  simp_all [encode, decodeWord, isSuper, decodeClass8]

theorem sneXy (x y : Nib) : Statement (.sneXy x y) := by
  have h := fields_word4 (c := 0x9) x y 0x0 (by decide)
  intro _
  simp_all [encode, decodeWord, isSuper]

theorem ldI (nnn : Addr) : Statement (.ldI nnn) := by
  have h := fields_word13 (c := 0xA) nnn (by decide)
  intro _
  simp_all [encode, decodeWord, isSuper]

theorem jpV0 (nnn : Addr) : Statement (.jpV0 nnn) := by
  have h := fields_word13 (c := 0xB) nnn (by decide)
  intro _
  simp_all [encode, decodeWord, isSuper]

theorem rnd (x : Nib) (kk : Byte) : Statement (.rnd x kk) := by
  have h := fields_word211 (c := 0xC) x (by decide) kk.isLt
  intro _
  simp_all [encode, decodeWord, isSuper]

theorem drw (x y n : Nib) : Statement (.drw x y n) := by
  have h := fields_word4 (c := 0xD) x y n (by decide)
  intro _
  simp_all [encode, decodeWord, isSuper]

theorem skp (x : Nib) : Statement (.skp x) := by
  have h := fields_word211 (c := 0xE) (kk := 0x9E) x (by decide) (by decide)
  intro _
  simp_all [encode, decodeWord, isSuper, decodeClassE]

theorem sknp (x : Nib) : Statement (.sknp x) := by
  have h := fields_word211 (c := 0xE) (kk := 0xA1) x (by decide) (by decide)
  intro _
  simp_all [encode, decodeWord, isSuper, decodeClassE]

theorem ldXDt (x : Nib) : Statement (.ldXDt x) := by
  have h := fields_word211 (c := 0xF) (kk := 0x07) x (by decide) (by decide)
  intro _
  simp_all [encode, decodeWord, isSuper, decodeClassF]

theorem ldXK (x : Nib) : Statement (.ldXK x) := by
  have h := fields_word211 (c := 0xF) (kk := 0x0A) x (by decide) (by decide)
  intro _
  simp_all [encode, decodeWord, isSuper, decodeClassF]

theorem ldDtX (x : Nib) : Statement (.ldDtX x) := by
  have h := fields_word211 (c := 0xF) (kk := 0x15) x (by decide) (by decide)
  intro _
  simp_all [encode, decodeWord, isSuper, decodeClassF]

theorem ldStX (x : Nib) : Statement (.ldStX x) := by
  have h := fields_word211 (c := 0xF) (kk := 0x18) x (by decide) (by decide)
  intro _
  simp_all [encode, decodeWord, isSuper, decodeClassF]

theorem addIX (x : Nib) : Statement (.addIX x) := by
  have h := fields_word211 (c := 0xF) (kk := 0x1E) x (by decide) (by decide)
  intro _
  simp_all [encode, decodeWord, isSuper, decodeClassF]

theorem ldFX (x : Nib) : Statement (.ldFX x) := by
  have h := fields_word211 (c := 0xF) (kk := 0x29) x (by decide) (by decide)
  intro _
  simp_all [encode, decodeWord, isSuper, decodeClassF]

theorem ldBX (x : Nib) : Statement (.ldBX x) := by
  have h := fields_word211 (c := 0xF) (kk := 0x33) x (by decide) (by decide)
  intro _
  simp_all [encode, decodeWord, isSuper, decodeClassF]

theorem ldMemX (x : Nib) : Statement (.ldMemX x) := by
  have h := fields_word211 (c := 0xF) (kk := 0x55) x (by decide) (by decide)
  intro _
  simp_all [encode, decodeWord, isSuper, decodeClassF]

theorem ldXMem (x : Nib) : Statement (.ldXMem x) := by
  have h := fields_word211 (c := 0xF) (kk := 0x65) x (by decide) (by decide)
  intro _
  simp_all [encode, decodeWord, isSuper, decodeClassF]

theorem ldRX (x : Nib) : Statement (.ldRX x) := by
  have h := fields_word211 (c := 0xF) (kk := 0x75) x (by decide) (by decide)
  intro _
  simp_all [encode, decodeWord, isSuper, decodeClassF, superOnly]

theorem ldXR (x : Nib) : Statement (.ldXR x) := by
  have h := fields_word211 (c := 0xF) (kk := 0x85) x (by decide) (by decide)
  intro _
  simp_all [encode, decodeWord, isSuper, decodeClassF, superOnly]

end Sys2Proof.Laws.RoundTrip
end

