-- ==== Sys2Proof/Tests/Slice0.lean ====
section
/-! SUPPORT. Tests: the checks of WellFormed, words written out from the spec's encodings, the spec's own vectors
(spec/95_test_vectors.md: S<n> given by the source, T<n> derived from the rules), and a concrete state for the
hypotheses of every statement. Every expected value is the spec's. -/

namespace Sys2Proof.Tests

open Sys2Proof.Machine

set_option Elab.async false

/-! ## Helpers -/

/-- A state with the given registers. -/
def withV (l : List (Nib × Byte)) (s : State) : State := l.foldl (fun t p => t.setV p.1 p.2) s

/-- The step that runs the given word, placed at `pc`. -/
def run (w : Word) (s : State) : Out := step (s.withFetchWord 16 w.toNat)

/-- The answer is a next state of which the check holds. -/
def sees (o : Out) (check : State → Bool) : Bool :=
  match o with
  | .next t => check t
  | .fault _ => false
  | .refused _ => false

/-- The answer is that fault and leaves a state of which the check holds. -/
def faults (o : Out) (c : FaultCode) (check : State → Bool) : Bool :=
  match o with
  | .next _ => false
  | .fault f => f.code == c && check f.after
  | .refused _ => false

/-- The result of the step that runs the given word. -/
def result (w : Word) (s : State) : StepResult := stepResult (s.withFetchWord 16 w.toNat)

/-- The state after reset, with the gate off. -/
def gateOff : State := { State.reset with cfg := { superEnabled := false } }

/-- The state after reset, with one low resolution pixel lit. -/
def litLo (p : Nat) : State := { State.reset with fbLo := flipPixel State.reset.fbLo p }

/-- The high resolution screen with one pixel lit. -/
def litHi (p : Nat) : State := { State.reset with highRes := true, fbHi := flipPixel State.reset.fbHi p }

/-! ## Well-formed terms -/

theorem test_wf_sys_refuses_halt : wellFormed (.sys 0x000) = false := by decide +kernel
theorem test_wf_sys_refuses_cls : wellFormed (.sys 0x0E0) = false := by decide +kernel
theorem test_wf_sys_refuses_ret : wellFormed (.sys 0x2EE) = false := by decide +kernel
theorem test_wf_sys_refuses_scd : wellFormed (.sys 0x1C5) = false := by decide +kernel
theorem test_wf_sys_refuses_scr : wellFormed (.sys 0x3FB) = false := by decide +kernel
theorem test_wf_sys_refuses_scl : wellFormed (.sys 0x3FC) = false := by decide +kernel
theorem test_wf_sys_refuses_exit : wellFormed (.sys 0x3FD) = false := by decide +kernel
theorem test_wf_sys_refuses_low : wellFormed (.sys 0x3FE) = false := by decide +kernel
theorem test_wf_sys_refuses_high : wellFormed (.sys 0x3FF) = false := by decide +kernel
theorem test_wf_sys_admits : wellFormed (.sys 0x300) = true ∧ wellFormed (.sys 0x0FA) = true := by decide +kernel

/-! ## Decoding: one word per constructor, from the table of spec/30_encoding.md R100 -/

theorem test_decode_class0 :
    decodeWord true 0x0000 = .ok .halt ∧ decodeWord true 0x00E0 = .ok (.cls 0) ∧ decodeWord true 0x02E0 = .ok (.cls 2) ∧
    decodeWord true 0x00EE = .ok (.ret 0) ∧ decodeWord true 0x00C2 = .ok (.scd 0 2) ∧
    decodeWord true 0x00FB = .ok (.scr 0) ∧ decodeWord true 0x00FC = .ok (.scl 0) ∧
    decodeWord true 0x00FD = .ok (.exit 0) ∧ decodeWord true 0x00FE = .ok (.low 0) ∧
    decodeWord true 0x00FF = .ok (.high 0) ∧ decodeWord true 0x0210 = .ok (.sys 0x210) ∧
    decodeWord true 0x0300 = .ok (.sys 0x300) ∧ decodeWord true 0x0001 = .ok (.sys 0x001) := by decide +kernel

theorem test_decode_flow :
    decodeWord true 0x1204 = .ok (.jp 0x204) ∧ decodeWord true 0x2210 = .ok (.call 0x210) ∧
    decodeWord true 0xB101 = .ok (.jpV0 0x101) := by decide +kernel

theorem test_decode_skips :
    decodeWord true 0x3002 = .ok (.seKk 0 0x02) ∧ decodeWord true 0x41C0 = .ok (.sneKk 1 0xC0) ∧
    decodeWord true 0x5120 = .ok (.seXy 1 2) ∧ decodeWord true 0x9120 = .ok (.sneXy 1 2) ∧
    decodeWord true 0xE39E = .ok (.skp 3) ∧ decodeWord true 0xE3A1 = .ok (.sknp 3) := by decide +kernel

theorem test_decode_loads :
    decodeWord true 0x6A02 = .ok (.ldKk 0xA 0x02) ∧ decodeWord true 0x732A = .ok (.addKk 3 0x2A) ∧
    decodeWord true 0xA300 = .ok (.ldI 0x300) ∧ decodeWord true 0xC10F = .ok (.rnd 1 0x0F) ∧
    decodeWord true 0xD125 = .ok (.drw 1 2 5) := by decide +kernel

theorem test_decode_class8 :
    decodeWord true 0x8EF0 = .ok (.ldXy 0xE 0xF) ∧ decodeWord true 0x8121 = .ok (.or 1 2) ∧
    decodeWord true 0x8122 = .ok (.and 1 2) ∧ decodeWord true 0x8123 = .ok (.xor 1 2) ∧
    decodeWord true 0x8344 = .ok (.addXy 3 4) ∧ decodeWord true 0x8125 = .ok (.sub 1 2) ∧
    decodeWord true 0x8126 = .ok (.shr 1 2) ∧ decodeWord true 0x8127 = .ok (.subn 1 2) ∧
    decodeWord true 0x812E = .ok (.shl 1 2) := by decide +kernel

theorem test_decode_classF :
    decodeWord true 0xF207 = .ok (.ldXDt 2) ∧ decodeWord true 0xF30A = .ok (.ldXK 3) ∧
    decodeWord true 0xF215 = .ok (.ldDtX 2) ∧ decodeWord true 0xF218 = .ok (.ldStX 2) ∧
    decodeWord true 0xF01E = .ok (.addIX 0) ∧ decodeWord true 0xF029 = .ok (.ldFX 0) ∧
    decodeWord true 0xF033 = .ok (.ldBX 0) ∧ decodeWord true 0xF255 = .ok (.ldMemX 2) ∧
    decodeWord true 0xF165 = .ok (.ldXMem 1) ∧ decodeWord true 0xF175 = .ok (.ldRX 1) ∧
    decodeWord true 0xF185 = .ok (.ldXR 1) := by decide +kernel

/-- Bytes: the high byte first (R62), two bytes to an instruction (R90). -/
theorem test_decode_bytes :
    decodeBytes true [0xD1, 0x25, 0x77] = .ok (.drw 1 2 5, [0x77]) ∧ decodeBytes true [0xD1] = .error .truncated ∧
    decodeBytes true [] = .error .truncated := by decide +kernel

theorem test_decodeTableWord : decodeTableWord 16 0xD125 = some (.drw 1 2 5) ∧ decodeTableWord 16 0x5121 = none := by
  decide +kernel

/-- T42, T43, T80: invalid words of classes 5, 8 and 9, each under its own name. -/
theorem test_decode_rejects :
    decodeWord true 0x5121 = .error .class5 ∧ decodeWord true 0x9001 = .error .class9 ∧
    ([0x8128, 0x8129, 0x812A, 0x812B, 0x812C, 0x812D, 0x812F].all fun w => decodeWord true w = .error .class8) = true := by
  decide +kernel

/-- T11, T12, T105, T145, T146: invalid words of classes E, F and 0. -/
theorem test_decode_rejects_more :
    ([0xE300, 0xE39F, 0xE1A2].all fun w => decodeWord true w = .error .classE) = true ∧
    ([0xF000, 0xF030, 0xF01F, 0xF0FF].all fun w => decodeWord true w = .error .classF) = true ∧
    ([0x00C1, 0x00FB, 0x00FC, 0x00FD, 0x00FE, 0x00FF, 0xF075, 0xF085].all fun w =>
      decodeWord false w = .error .superDisabled) = true := by decide +kernel

/-! ## Class 0 -/

theorem test_halt : result 0x0000 State.reset = .halt ∧ sees (run 0x0000 State.reset) (fun t => t.pc == 0x202) := by
  decide +kernel
/-- T2. -/
theorem test_cls : sees (run 0x00E0 { litLo 5 with fbHi := flipPixel State.reset.fbHi 9 }) (fun t =>
    t.fbLo == State.reset.fbLo && t.fbHi == State.reset.fbHi) := by decide +kernel
/-- T4. -/
theorem test_ret_empty : faults (run 0x00EE State.reset) .stackUnderflow (fun t => t.pc == 0x202 && t.SP == 0) := by
  decide +kernel
/-- T6. -/
theorem test_ret : sees (run 0x00EE { State.reset with SP := 2, stack := (State.reset.stack.set 0 0x300).set 1 0x400 })
    (fun t => t.pc == 0x400 && t.SP == 1) := by decide +kernel
/-- T7. -/
theorem test_scd : sees (run 0x00C2 (litLo 1989)) (fun t => t.fbLo == (litLo 69).fbLo) := by decide +kernel
/-- T8. -/
theorem test_scd_zero : sees (run 0x00C0 (litLo 1989)) (fun t => t.fbLo == (litLo 1989).fbLo) := by decide +kernel
/-- T9. -/
theorem test_scr : sees (run 0x00FB (litHi 126)) (fun t => t.fbHi == (litHi 2).fbHi) := by decide +kernel
/-- T11. -/
theorem test_scr_gate : faults (run 0x00FB gateOff) .invalidOpcode (fun t => t.pc == 0x202) := by decide +kernel
/-- T10. -/
theorem test_scl : sees (run 0x00FC (litLo 193)) (fun t => t.fbLo == (litLo 255).fbLo) := by decide +kernel
/-- T13. -/
theorem test_exit : result 0x00FD State.reset = .halt ∧ result 0x00FD gateOff = .fault .invalidOpcode := by decide +kernel
/-- T15. -/
theorem test_low : sees (run 0x00FE (litHi 0)) (fun t => !t.highRes && screenWidth t == 64) := by decide +kernel
/-- T14. -/
theorem test_high : sees (run 0x00FF (litLo 7)) (fun t =>
    t.highRes && pixelOf t.fbLo 7 && screenWidth t == 128 && screenHeight t == 64) := by decide +kernel
/-- T16. -/
theorem test_sys : sees (run 0x0210 State.reset) (fun t => t.pc == 0x210) := by decide +kernel
/-- T19. -/
theorem test_sys_low : faults (run 0x0001 State.reset) .outOfRangeAccess (fun t => t.pc == 0x202) := by decide +kernel

/-! ## Flow and skips -/

/-- T24. -/
theorem test_jp_top : sees (run 0x1FFE State.reset) (fun t =>
    t.pc == 0xFFE && faults (step t) .outOfRangeAccess fun u => u.pc == 0xFFE) := by decide +kernel
/-- T21. -/
theorem test_jp_odd : faults (run 0x1201 State.reset) .outOfRangeAccess (fun t => t.pc == 0x202) := by decide +kernel
/-- T28. -/
theorem test_jpV0 : sees (run 0xB101 (withV [(0, 0xFF), (1, 0x10)] State.reset)) (fun t => t.pc == 0x200) := by decide +kernel
/-- T27. -/
theorem test_jpV0_unmasked : faults (run 0xBFFE (withV [(0, 2)] State.reset)) .outOfRangeAccess (fun t => t.pc == 0x202) := by
  decide +kernel
/-- T30. -/
theorem test_call : sees (run 0x2210 { State.reset with SP := 15 })
    (fun t => t.pc == 0x210 && t.SP == 16 && t.stack[15] == 0x202) := by decide +kernel
/-- T32. -/
theorem test_call_full : faults (run 0x2100 { State.reset with SP := 16 }) .stackOverflow
    (fun t => t.pc == 0x202 && t.SP == 16) := by decide +kernel
/-- T34. -/
theorem test_seKk : sees (run 0x3002 (withV [(0, 2)] State.reset)) (fun t => t.pc == 0x204) := by decide +kernel
/-- T44. -/
theorem test_seKk_top : faults (run 0x3000 { State.reset with pc := 0xFFC }) .outOfRangeAccess (fun t => t.pc == 0xFFE) := by
  decide +kernel
/-- T36, T37. -/
theorem test_sneKk : sees (run 0x4100 (withV [(1, 7)] State.reset)) (fun t => t.pc == 0x204) ∧
    sees (run 0x4100 State.reset) (fun t => t.pc == 0x202) := by decide +kernel
/-- T38. -/
theorem test_seXy : sees (run 0x5120 (withV [(1, 0x40), (2, 0x40)] State.reset)) (fun t => t.pc == 0x204) := by decide +kernel
/-- T40, T41. -/
theorem test_sneXy : sees (run 0x9120 (withV [(1, 1), (2, 2)] State.reset)) (fun t => t.pc == 0x204) ∧
    sees (run 0x9330 State.reset) (fun t => t.pc == 0x202) := by decide +kernel
/-- T100. -/
theorem test_skp : sees (run 0xE39E (withV [(3, 7)] { State.reset with key := State.reset.key.set 7 true }))
    (fun t => t.pc == 0x204) := by decide +kernel
/-- T104. -/
theorem test_skp_sixteen : faults (run 0xE39E (withV [(3, 16)] State.reset)) .outOfRangeAccess (fun t => t.pc == 0x202) := by
  decide +kernel
/-- T103. -/
theorem test_sknp : sees (run 0xE3A1 (withV [(3, 7)] State.reset)) (fun t => t.pc == 0x204) := by decide +kernel
/-- T102. -/
theorem test_sknp_down : sees (run 0xE3A1 (withV [(3, 7)] { State.reset with key := State.reset.key.set 7 true }))
    (fun t => t.pc == 0x202) := by decide +kernel

/-! ## Loads and arithmetic -/

/-- S7. -/
theorem test_ldKk : sees (run 0x6A02 State.reset) (fun t => t.getV 0xA == 2 && t.pc == 0x202) := by decide +kernel
/-- T50. -/
theorem test_addKk : sees (run 0x7301 (withV [(3, 0xFF), (15, 0x55)] State.reset))
    (fun t => t.getV 3 == 0 && t.getV 15 == 0x55) := by decide +kernel
/-- T52. -/
theorem test_ldXy : sees (run 0x8EF0 (withV [(15, 1)] State.reset)) (fun t => t.getV 0xE == 1) := by decide +kernel
/-- T53. -/
theorem test_or : sees (run 0x8121 (withV [(1, 0x0F), (2, 0xF0), (15, 7)] State.reset))
    (fun t => t.getV 1 == 0xFF && t.getV 15 == 7) := by decide +kernel
/-- T54. -/
theorem test_and : sees (run 0x8122 (withV [(1, 0x3C), (2, 0x0F)] State.reset)) (fun t => t.getV 1 == 0x0C) := by decide +kernel
/-- T55. -/
theorem test_xor : sees (run 0x8123 (withV [(1, 0xFF), (2, 0x0F)] State.reset)) (fun t => t.getV 1 == 0xF0) := by decide +kernel
/-- T57. -/
theorem test_addXy : sees (run 0x8344 (withV [(3, 0xFF), (4, 1)] State.reset))
    (fun t => t.getV 3 == 0 && t.getV 15 == 1) := by decide +kernel
/-- T60: the flag lands over the result. -/
theorem test_addXy_vf : sees (run 0x8F14 (withV [(15, 0xF0), (1, 0x20)] State.reset)) (fun t => t.getV 15 == 1) := by decide +kernel
/-- T63. -/
theorem test_sub : sees (run 0x8125 (withV [(1, 3), (2, 5)] State.reset)) (fun t => t.getV 1 == 0xFE && t.getV 15 == 0) := by
  decide +kernel
/-- T66. -/
theorem test_sub_vf : sees (run 0x8F15 (withV [(15, 5), (1, 3)] State.reset)) (fun t => t.getV 15 == 1) := by decide +kernel
/-- T69: `Vy` is not used. -/
theorem test_shr : sees (run 0x8126 (withV [(1, 4), (2, 0xFF)] State.reset)) (fun t => t.getV 1 == 2 && t.getV 15 == 0) := by
  decide +kernel
/-- T72. -/
theorem test_shr_vf : sees (run 0x8F06 (withV [(15, 2)] State.reset)) (fun t => t.getV 15 == 0) := by decide +kernel
/-- T73. -/
theorem test_subn : sees (run 0x8127 (withV [(1, 3), (2, 5)] State.reset)) (fun t => t.getV 1 == 2 && t.getV 15 == 1) := by
  decide +kernel
/-- T74. -/
theorem test_subn_borrow : sees (run 0x8127 (withV [(1, 5), (2, 3)] State.reset))
    (fun t => t.getV 1 == 0xFE && t.getV 15 == 0) := by decide +kernel
/-- T76. -/
theorem test_shl : sees (run 0x810E (withV [(1, 0x81)] State.reset)) (fun t => t.getV 1 == 2 && t.getV 15 == 1) := by decide +kernel
/-- T77. -/
theorem test_shl_vy : sees (run 0x812E (withV [(1, 0x40), (2, 0xFF), (15, 1)] State.reset))
    (fun t => t.getV 1 == 0x80 && t.getV 15 == 0) := by decide +kernel
/-- T83. -/
theorem test_ldI : sees (run 0xAFFF State.reset) (fun t => t.I == 0xFFF) := by decide +kernel
/-- T84, with the random byte given. -/
theorem test_rnd : sees (stepWith 0xA7 (State.reset.withFetchWord 16 0xC10F)) (fun t => t.getV 1 == 0x07) := by decide +kernel

/-! ## Draw -/

/-- A state with one sprite byte at 0x300 and `I` there. -/
def spriteAt (b : Byte) (s : State) : State := { s.poke 0x300 [b] with I := 0x300 }

/-- T91: the flat index wraps, not the coordinates. -/
theorem test_drw_wrap : sees (run 0xD121 (withV [(1, 200), (2, 100)] (spriteAt 0xFF State.reset))) (fun t =>
    t.fbLo == (List.range 8).foldl (fun fb b => flipPixel fb (456 + b)) State.reset.fbLo && t.getV 15 == 0) := by decide +kernel
/-- T94: bit 7 first, the second pixel collides. -/
theorem test_drw_collision : sees (run 0xD001 (spriteAt 0xC0 (litLo 1))) (fun t =>
    t.fbLo == (litLo 0).fbLo && t.getV 15 == 1) := by decide +kernel

/-! ## Class F -/

/-- T114. -/
theorem test_ldXDt : sees (run 0xF207 { State.reset with DT := 0x3C }) (fun t => t.getV 2 == 0x3C && t.DT == 0x3C) := by decide +kernel
/-- T109. -/
theorem test_ldXK : sees (run 0xF30A { State.reset with latchValid := true, latchKey := 4 })
    (fun t => t.waiting && t.waitReg == 3 && !t.latchValid && t.pc == 0x202) := by decide +kernel
/-- T111. -/
theorem test_keyWait : sees (step { State.reset with waiting := true, waitReg := 3, latchValid := true, latchKey := 9 })
    (fun t => t.getV 3 == 9 && !t.waiting && !t.latchValid && t.pc == 0x200) := by decide +kernel
/-- T115. -/
theorem test_ldDtX : sees (run 0xF215 (withV [(2, 60)] State.reset)) (fun t => t.DT == 60 && t.ST == 0) := by decide +kernel
/-- T116. -/
theorem test_ldStX : sees (run 0xF218 (withV [(2, 5)] State.reset)) (fun t => t.ST == 5 && t.DT == 0) := by decide +kernel
/-- T119. -/
theorem test_addIX : sees (run 0xF01E (withV [(0, 2)] { State.reset with I := 0xFFF }))
    (fun t => t.I == 0x001 && t.getV 15 == 1) := by decide +kernel
/-- T121. -/
theorem test_addIX_edge : sees (run 0xF01E (withV [(0, 0xFF)] { State.reset with I := 0xF00 }))
    (fun t => t.I == 0xFFF && t.getV 15 == 0) := by decide +kernel
/-- T128. -/
theorem test_ldFX : sees (run 0xF029 (withV [(0, 0xFF), (15, 3)] State.reset)) (fun t => t.I == 0x4FB && t.getV 15 == 3) := by
  decide +kernel
/-- T129. -/
theorem test_ldBX : sees (run 0xF033 (withV [(0, 234)] { State.reset with I := 0x300 }))
    (fun t => [t.peek 0x300, t.peek 0x301, t.peek 0x302] == [2, 3, 4]) := by decide +kernel
/-- T133: nothing is stored. -/
theorem test_ldBX_top : faults (run 0xF033 (withV [(0, 199)] { State.reset with I := 0xFFE })) .outOfRangeAccess
    (fun t => t.peek 0xFFE == 0 && t.peek 0xFFF == 0 && t.pc == 0x202) := by decide +kernel
/-- T135. -/
theorem test_ldMemX : sees (run 0xF255 (withV [(0, 0x11), (1, 0x22), (2, 0x33), (3, 0x44)] { State.reset with I := 0x400 }))
    (fun t => [t.peek 0x400, t.peek 0x401, t.peek 0x402, t.peek 0x403] == [0x11, 0x22, 0x33, 0] && t.I == 0x400) := by decide +kernel
/-- T138. -/
theorem test_ldMemX_low : faults (run 0xF155 (withV [(0, 1), (1, 2)] { State.reset with I := 0x1FF })) .outOfRangeAccess
    (fun t => t.peek 0x200 == 0xF1) := by decide +kernel
/-- T140. -/
theorem test_ldXMem : sees (run 0xF165 State.reset) (fun t => t.getV 0 == 0xF0 && t.getV 1 == 0x90 && t.I == 0) := by decide +kernel
/-- T142. -/
theorem test_ldXMem_top : faults (run 0xFF65 { State.reset with I := 0xFF1, V := Vector.replicate 16 0xEE }) .outOfRangeAccess
    (fun t => t.V == Vector.replicate 16 0xEE) := by decide +kernel
/-- T143. -/
theorem test_ldRX : sees (run 0xF175 (withV [(0, 9), (1, 8)] { State.reset with R := State.reset.R.set 2 0x77 }))
    (fun t => [t.R[0], t.R[1], t.R[2]] == [9, 8, 0x77]) := by decide +kernel
/-- T144. -/
theorem test_ldXR : sees (run 0xF185 (withV [(2, 5)] { State.reset with R := (State.reset.R.set 0 9).set 1 8 }))
    (fun t => [t.getV 0, t.getV 1, t.getV 2] == [9, 8, 5]) := by decide +kernel

/-! ## Host operations, faults, disassembler -/

/-- T106, T107, T113. -/
theorem test_setKey :
    (pressKey 4 true State.reset).latchKey = 4 ∧ (pressKey 4 true State.reset).latchValid = true ∧
    (pressKey 4 true { State.reset with key := State.reset.key.set 4 true }).latchValid = false ∧
    setKey 16 true State.reset = .error .outOfRangeAccess := by decide +kernel
/-- T117. -/
theorem test_tick : (tick { State.reset with DT := 2, ST := 1 }).DT = 1 ∧ (tick { State.reset with DT := 2, ST := 1 }).ST = 0 ∧
    (tick State.reset).DT = 0 := by decide +kernel
/-- T147, T148. -/
theorem test_reset_keeps :
    (hostReset false (State.reset.poke 0x300 [7])).peek 0x300 = 7 ∧ (hostReset true (State.reset.poke 0x300 [7])).peek 0x300 = 0 ∧
    (hostReset false (State.reset.poke 0 [0])).peek 0 = 0xF0 ∧
    (hostReset true { State.reset with R := State.reset.R.set 0 5 }).R[0] = 5 := by decide +kernel
/-- T150. -/
theorem test_loadProgram : (let t := loadProgram [0x60, 0x05, 0x61] State.reset
    [t.peek 0x200, t.peek 0x201, t.peek 0x202, t.peek 0x203]) = [0x60, 0x05, 0x61, 0] := by decide +kernel
/-- T151: the advance fails before the word is decoded. -/
theorem test_top_slot : faults (run 0xFFFF { State.reset with pc := 0xFFE }) .outOfRangeAccess (fun t => t.pc == 0xFFE) := by
  decide +kernel
/-- T152: after a fault the next step runs from the state it left. -/
theorem test_no_fault_latch :
    stateOf (stepWith 0 (stateOf (stepWith 0 (loadProgram [0x51, 0x21, 0x6A, 0x02] State.reset)) State.reset)) State.reset =
      { (loadProgram [0x51, 0x21, 0x6A, 0x02] State.reset).setV 0xA 2 with pc := 0x204 } := by decide +kernel
/-- T153 to T155, S11. -/
theorem test_disassemble :
    disassemble (State.reset.poke 0x200 [0x73, 0x2A]) 0x200 = "ADD V3, 2A" ∧
    disassemble (State.reset.poke 0x200 [0x51, 0x21]) 0x200 = "???" ∧
    disassemble (State.reset.poke 0x200 [0x12, 0x00]) 0x200 = "JP 200" ∧
    disassemble (State.reset.poke 0x200 [0xD1, 0x25]) 0x200 = "DRW V1, V2, 5" ∧
    disassemble (State.reset.poke 0x200 [0x6A, 0x02]) 0x200 = "LD VA, 2" ∧
    disassemble State.reset 0xFFF = "???" := by decide +kernel

/-! ## Witnesses: for every statement with hypotheses, a state and operands that meet them, at the ends of each range -/

theorem next_of_sees {o : Out} {check : State → Bool} (h : sees o check = true) : ∃ t, o = .next t ∧ check t = true := by
  cases o with
  | next t => exact ⟨t, rfl, h⟩
  | fault f => exact absurd h Bool.false_ne_true
  | refused r => exact absurd h Bool.false_ne_true

theorem fault_of_faults {o : Out} {c : FaultCode} {check : State → Bool} (h : faults o c check = true) :
    ∃ f, o = .fault f ∧ f.code = c := by
  cases o with
  | next t => exact absurd h Bool.false_ne_true
  | fault f => exact ⟨f, rfl, by simpa using (Bool.and_eq_true_iff.1 h).1⟩
  | refused r => exact absurd h Bool.false_ne_true

/-- A legal state in the middle of a run: two calls outstanding, both kinds of memory written, the word `6A02` at `pc`. -/
def mid : State :=
  { (withV [(0, 5), (1, 0xFF), (3, 7)] State.reset).poke 0x2F0 [0x6A, 0x02] with
    pc := 0x2F0, SP := 2, stack := (State.reset.stack.set 0 0x202).set 1 0xFFE, I := 0x300, DT := 9, highRes := true,
    fbHi := flipPixel State.reset.fbHi 9, R := State.reset.R.set 2 0x77, key := State.reset.key.set 7 true }

theorem mid_stackOk : mid.stackOk := by unfold State.stackOk; decide +kernel

theorem mid_inv : mid.Inv := ⟨by decide +kernel, by decide +kernel, mid_stackOk, by decide +kernel, by decide +kernel⟩

theorem witness_DecodeOfEncodeIsIdentity :
    wellFormed (.sys 0xFFA) = true ∧ wellFormed (.ldRX 15) = true ∧ isSuper (.ldRX 15) = true ∧ isSuper (.sys 0xFFA) = false := by
  decide +kernel

theorem witness_EncodeOfDecodedIsIdentity :
    decodeWord false 0x8126 = .ok (.shr 1 2) ∧ decodeWord true 0x0AFB = .ok (.scr 0xA) ∧ isSuper (.scr 0xA) = true := by
  decide +kernel

theorem witness_DecodeAgreesWithOpcodeTable :
    (selectRow 0x0000 opcodeTable).map (fun r => (r.mnemonic, r.isSuper)) = some ("HALT", false) ∧
    (selectRow 0x00C5 opcodeTable).map (fun r => (r.mnemonic, r.isSuper)) = some ("SCD_n", true) ∧
    selectRow 0x5001 opcodeTable = none := by decide +kernel

theorem witness_StepRunsTheDecodedInstruction :
    (∀ s ∈ [State.reset.withFetchWord 16 0x6A02, ({ State.reset with pc := 0xFFC } : State).withFetchWord 16 0x6A02],
      s.waiting = false ∧ legalPc s.pc.toNat = true ∧ s.pc.toNat ≤ 0xFFC ∧
      [s.peek s.pc.toNat, s.peek (s.pc.toNat + 1)] = bytesOfWord (encode (.ldKk 0xA 2))) ∧
    wellFormed (.ldKk 0xA 2) = true ∧ isSuper (.ldKk 0xA 2) = false := by decide +kernel

theorem witness_LastSlotNeverExecutes :
    ({ State.reset with pc := 0xFFE } : State).waiting = false ∧ ({ State.reset with pc := 0xFFE } : State).pc = 0xFFE :=
  ⟨rfl, rfl⟩

theorem witness_InvalidOpcodeIsRaisedAfterTheAdvance :
    (∀ s ∈ [State.reset.withFetchWord 16 0x5121, gateOff.withFetchWord 16 0x00FB],
      s.waiting = false ∧ legalPc s.pc.toNat = true ∧ s.pc.toNat ≤ 0xFFC) ∧
    decodeWord true (wordOfBytes ((State.reset.withFetchWord 16 0x5121).peek 0x200)
      ((State.reset.withFetchWord 16 0x5121).peek 0x201)) = .error .class5 ∧
    isSuper (.scr 0) = true ∧ gateOff.cfg.superEnabled = false ∧
    wordOfBytes ((gateOff.withFetchWord 16 0x00FB).peek 0x200) ((gateOff.withFetchWord 16 0x00FB).peek 0x201) =
      encode (.scr 0) := by decide +kernel

theorem witness_WaitingStepOnlyChecksTheLatch :
    ∀ v ∈ [true, false], ({ State.reset with waiting := true, latchValid := v } : State).waiting = true ∧
      ({ State.reset with waiting := true, latchValid := v } : State).latchValid = v := by decide

theorem witness_StepResultIsHaltOnlyForHaltAndExit :
    State.reset.waiting = false ∧ fetchDecode State.reset = .ok (.halt, State.reset.advanced) ∧
    fetchDecode mid = .ok (.ldKk 0xA 2, mid.advanced) := by decide +kernel

theorem witness_StepIsStepWithAFreeDraw :
    ({ State.reset with waiting := true } : State).waiting = true ∧
    ∀ x kk s', fetchDecode State.reset ≠ .ok (.rnd x kk, s') := by
  refine ⟨rfl, fun x kk s' h => ?_⟩
  rw [witness_StepResultIsHaltOnlyForHaltAndExit.2.1] at h
  simp at h

theorem witness_FaultLeavesOnlyTheAdvance :
    legalPc ({ State.reset with pc := 0xFFE } : State).pc.toNat = true ∧
    (∃ f, step { State.reset with pc := 0xFFE } = .fault f ∧ f.code = .outOfRangeAccess) ∧
    legalPc (State.reset.withFetchWord 16 0x00EE).pc.toNat = true ∧
    ∃ f, step (State.reset.withFetchWord 16 0x00EE) = .fault f ∧ f.code = .stackUnderflow :=
  ⟨by decide +kernel, fault_of_faults (check := fun _ => true) (by decide +kernel), by decide +kernel,
    fault_of_faults (check := fun _ => true) (by decide +kernel)⟩

theorem witness_FaultsExactlyInTheListedCases :
    mid.stackOk ∧ faultCase gateOff (.scr 0) .invalidOpcode ∧
    faultCase { State.reset with SP := 16 } (.call 0x200) .stackOverflow ∧ faultCase State.reset (.ret 0) .stackUnderflow ∧
    faultCase State.reset (.jp 0x1FE) .outOfRangeAccess ∧ ¬faultCase State.reset (.jp 0x200) .outOfRangeAccess ∧
    faultCase State.reset (.jp 0xFFF) .outOfRangeAccess ∧ ¬faultCase State.reset (.jp 0xFFE) .outOfRangeAccess ∧
    ∀ c, ¬faultCase mid (.ldKk 0xA 2) c := by
  refine ⟨mid_stackOk, ⟨rfl, rfl⟩, ⟨0x200, rfl, by decide⟩, ⟨0, rfl, rfl⟩, ?_, ?_, ?_, ?_, fun c => ?_⟩
  · exact .inl (by decide)
  · change ¬badTarget (0x200 : Addr).toNat; decide
  · exact .inr (.inl (by decide))
  · change ¬badTarget (0xFFE : Addr).toNat; decide
  · cases c
    · exact fun h => absurd h.1 (by decide)
    · rintro ⟨_, h, _⟩; simp at h
    · rintro ⟨_, h, _⟩; simp at h
    · exact id

/-- The clauses of R274 that look at `I` and at key indexes, at the ends of their ranges. -/
theorem witness_outOfRangeCase_edges :
    outOfRangeCase { State.reset with I := 0xFFE } (.drw 0 0 3) ∧ ¬outOfRangeCase { State.reset with I := 0xFFE } (.drw 0 0 2) ∧
    ¬outOfRangeCase { State.reset with I := 0xFFF } (.drw 0 0 0) ∧
    outOfRangeCase { State.reset with I := 0xFF1 } (.ldXMem 15) ∧ ¬outOfRangeCase { State.reset with I := 0xFF0 } (.ldXMem 15) ∧
    outOfRangeCase { State.reset with I := 0xFFE } (.ldBX 0) ∧ ¬outOfRangeCase { State.reset with I := 0xFFD } (.ldBX 0) ∧
    outOfRangeCase { State.reset with I := 0x1FF } (.ldMemX 0) ∧ ¬outOfRangeCase { State.reset with I := 0x200 } (.ldMemX 0) ∧
    outOfRangeCase (withV [(3, 16)] State.reset) (.skp 3) ∧ ¬outOfRangeCase (withV [(3, 15)] State.reset) (.skp 3) := by
  simp only [outOfRangeCase]; decide +kernel

theorem witness_StepKeepsTheInvariant : mid.Inv ∧ ∃ t, step mid = .next t ∧ (t.getV 0xA == 2) = true :=
  ⟨mid_inv, next_of_sees (check := fun t => t.getV 0xA == 2) (by decide +kernel)⟩

theorem witness_HostOperationsKeepTheInvariant : mid.Inv := mid_inv

theorem witness_ResetIsLegal : Memory.wf mid.cfg mid.mem ∧ mid.mem = [(0x2F0, 0x6A), (0x2F1, 0x02)] := by decide +kernel

theorem witness_ProtectedMemoryIsNeverWritten : Memory.wf mid.cfg mid.mem ∧ 0x1FF < 0x200 := by decide +kernel

/-- Each kind of state is changed by the instruction the statement names for it. -/
theorem witness_OnlyNamedInstructionsWrite :
    sees (exec (.ldI 0x123) mid) (fun t => t.I != mid.I) ∧ sees (exec (.ldRX 1) mid) (fun t => t.R != mid.R) ∧
    sees (exec (.ldDtX 0) mid) (fun t => t.DT != mid.DT) ∧ sees (exec (.ldStX 0) mid) (fun t => t.ST != mid.ST) ∧
    sees (exec (.call 0x210) mid) (fun t => t.stack != mid.stack && t.SP != mid.SP) ∧
    sees (exec (.ldBX 0) mid) (fun t => t.mem != mid.mem) ∧ sees (exec (.cls 0) mid) (fun t => t.fbHi != mid.fbHi) ∧
    sees (exec (.low 0) mid) (fun t => t.highRes != mid.highRes) ∧
    sees (exec (.ldXK 2) mid) (fun t => t.waiting != mid.waiting && t.waitReg != mid.waitReg) ∧
    sees (exec (.rnd 2 0) mid) (fun t => t.draws != mid.draws) ∧
    sees (exec (.ldKk 0 1) mid) (fun t => t.getV 0 != mid.getV 0) := by decide +kernel

theorem witness_UnreadStateHasNoInfluence :
    (∀ x, Instr.halt ≠ .ldStX x) ∧ (∀ x, Instr.halt ≠ .ldXK x) ∧ ∀ x kk, Instr.halt ≠ .rnd x kk := by simp

theorem witness_FlagsAreZeroOrOne (i : Instr)
    (h : i ∈ [Instr.addXy 1 0, .sub 1 0, .subn 1 0, .shr 1 0, .shl 1 0, .drw 1 0 3, .addIX 1]) : ∃ t, exec i mid = .next t := by
  simp only [List.mem_cons, List.not_mem_nil, or_false] at h
  rcases h with rfl | rfl | rfl | rfl | rfl | rfl | rfl <;>
    exact (next_of_sees (check := fun _ => true) (by decide +kernel)).imp fun _ h => h.1

/-- For HaltExitLowHighEffects and PersistentRegisters: the gate on, and off. -/
theorem witness_gate : State.reset.cfg.superEnabled = true ∧ gateOff.cfg.superEnabled = false := ⟨rfl, rfl⟩

theorem witness_ReturnPopsTheStack : State.reset.stackOk ∧ State.reset.SP = 0 ∧ mid.stackOk ∧ mid.SP ≠ 0 :=
  ⟨by unfold State.stackOk; decide, by decide, mid_stackOk, by decide +kernel⟩

theorem witness_ScrollDownMovesRows :
    mid.cfg.superEnabled = true ∧ 63 < mid.height ∧ 127 < mid.width ∧ 31 < State.reset.height ∧ 63 < State.reset.width := by
  decide +kernel

theorem witness_ScrollRightAndLeftRotateRows :
    mid.cfg.superEnabled = true ∧ 4 = (if mid.highRes then mid.cfg.scrollAmountHi else mid.cfg.scrollAmountLo) ∧
    2 = (if State.reset.highRes then State.reset.cfg.scrollAmountHi else State.reset.cfg.scrollAmountLo) := by decide +kernel

theorem witness_ScrollDownIsToroidal :
    (mid.onActive (scrollDown 70)).pixel (6 * 128 + 9) = true ∧ 63 < mid.height ∧ 127 < mid.width := by decide +kernel

theorem witness_ScrollLeftUndoesScrollRight :
    (mid.onActive (scrollRight 125)).pixel 6 = true ∧ (mid.onActive (scrollLeft 10)).pixel 127 = true ∧
    31 < State.reset.height ∧ 63 < State.reset.width := by decide +kernel

theorem witness_JumpsWriteOnlyThePc :
    ¬badTarget 0x200 ∧ ¬badTarget 0xFFE ∧ badTarget 0x1FE ∧ badTarget 0x1000 ∧ badTarget 0x201 := by decide

theorem witness_CallPushesTheReturnAddress :
    16 ≤ ({ State.reset with SP := 16 } : State).SP.toNat ∧ ({ State.reset with SP := 15 } : State).SP.toNat < 16 ∧
    badTarget (0x1FF : Addr).toNat ∧ ¬badTarget (0x200 : Addr).toNat := by decide

theorem witness_ReturnUndoesCall : legalPc mid.pc.toNat = true ∧ ∃ t, exec (.call 0x210) mid = .next t :=
  ⟨by decide +kernel, (next_of_sees (check := fun _ => true) (by decide +kernel)).imp fun _ h => h.1⟩

/-- For SkipIfEqualImmediate and RegisterSkips: both sides of every condition, and a skip at the last legal target and past
it. -/
theorem witness_skips :
    mid.getV 0 = 5 ∧ mid.getV 1 ≠ 5 ∧ mid.getV 3 = mid.getV 3 ∧ mid.getV 0 ≠ mid.getV 1 ∧
    ¬badTarget (({ mid with pc := 0xFFC } : State).pc.toNat + 2) ∧ badTarget (({ mid with pc := 0xFFE } : State).pc.toNat + 2) := by
  decide +kernel

theorem witness_KeySkips :
    (mid.getV 3).toNat < 16 ∧ mid.key[7] = true ∧ mid.key[15] = false ∧ ((withV [(3, 15)] mid).getV 3).toNat < 16 ∧
    16 ≤ ((withV [(3, 16)] mid).getV 3).toNat := by decide +kernel

theorem witness_SubtractWithNotBorrow : 5 = (mid.getV 0).toNat ∧ 255 = (mid.getV 1).toNat := by decide +kernel

theorem witness_ShiftsIgnoreTheSecondRegister : 255 = (mid.getV 1).toNat ∧ 0 = (mid.getV 2).toNat := by decide +kernel

theorem witness_DrawInvertsTheCoveredPixels :
    ((3 : Nib) ≠ 0 ∧ ({ mid with I := 0xFFE } : State).I.toNat + (3 - 1) > 0xFFF) ∧
    ({ mid with I := 0xFFE } : State).I.toNat + (2 - 1) ≤ 0xFFF ∧ 8191 < mid.width * mid.height ∧
    spriteCovers { State.reset with I := 0 } 0 0 1 3 ∧ ¬spriteCovers { State.reset with I := 0 } 0 0 1 4 := by
  refine ⟨by decide +kernel, by decide +kernel, by decide +kernel, ⟨0, 3, by decide, by decide, by decide +kernel, by decide +kernel⟩, ?_⟩
  rintro ⟨r, b, hr, hb, hbit, hp⟩
  have hr0 : r = 0 := by have : r < 1 := hr; omega
  subst hr0
  have h : ∀ b, b < 8 → (State.peek { State.reset with I := 0 } 0).getLsbD (7 - b) = true → 4 ≠ (0 * 64 + (0 + b)) % (64 * 32) := by
    decide +kernel
  exact h b hb hbit hp

theorem witness_DrawingTwiceRestoresTheScreen :
    ∃ t, exec (.drw 0 3 1) { mid with I := 0 } = .next t ∧ (pixelOf t.fbHi (7 * 128 + 5) && !mid.pixel (7 * 128 + 5)) = true :=
  next_of_sees (check := fun t => pixelOf t.fbHi (7 * 128 + 5) && !mid.pixel (7 * 128 + 5)) (by decide +kernel)

theorem witness_KeyWaitDeliversTheLastPress : mid.key[(4 : Nib)] = false ∧ mid.key[(15 : Nib)] = false ∧ (4 : Nib) ≠ 15 := by
  decide +kernel

theorem witness_DecimalStore :
    Memory.wf mid.cfg mid.mem ∧ ({ mid with I := 0x1FF } : State).I.toNat < 0x200 ∧
    ({ mid with I := 0xFFE } : State).I.toNat + 2 > 0xFFF ∧ 0x200 ≤ ({ mid with I := 0x200 } : State).I.toNat ∧
    ({ mid with I := 0xFFD } : State).I.toNat + 2 ≤ 0xFFF := by decide +kernel

theorem witness_RegisterStore :
    Memory.wf mid.cfg mid.mem ∧ ({ mid with I := 0x1FF } : State).I.toNat < 0x200 ∧
    ({ mid with I := 0xFF1 } : State).I.toNat + (15 : Nib).val > 0xFFF ∧ 0x200 ≤ ({ mid with I := 0x200 } : State).I.toNat ∧
    ({ mid with I := 0xFF0 } : State).I.toNat + (15 : Nib).val ≤ 0xFFF := by decide +kernel

theorem witness_RegisterLoad :
    ({ mid with I := 0xFF1 } : State).I.toNat + (15 : Nib).val > 0xFFF ∧
    ({ mid with I := 0xFF0 } : State).I.toNat + (15 : Nib).val ≤ 0xFFF := by decide +kernel

theorem witness_StoredWordIsFetchedNext :
    Memory.wf mid.cfg mid.mem ∧ legalPc ({ mid with I := 0x2F0 } : State).pc.toNat = true ∧
    (∃ t, exec (.ldMemX 1) { mid with I := 0x2F0 } = .next t) ∧
    ({ mid with I := 0x2F0 } : State).pc.toNat = ({ mid with I := 0x2F0 } : State).I.toNat + (0 : Nib).val ∧
    (1 : Nib).val = (0 : Nib).val + 1 ∧ (1 : Nib) ≤ 1 :=
  ⟨by decide +kernel, by decide +kernel, (next_of_sees (check := fun _ => true) (by decide +kernel)).imp fun _ h => h.1,
    by decide +kernel, rfl, by decide⟩

theorem witness_SetKeyLatchesOnlyPresses : mid.key[(0 : Nib)] = false ∧ mid.key[(7 : Nib)] = true ∧ 16 ≤ 16 := by decide +kernel

theorem witness_ResetLeavesTheListedValues : Memory.wf mid.cfg mid.mem ∧ 79 < 80 ∧ 80 ≤ 80 := by decide +kernel

theorem witness_LoadProgramCopiesAndTruncates :
    Memory.wf mid.cfg mid.mem ∧ 0xDFF < (List.replicate 4000 (1 : Byte)).length ∧ 0xDFF < 0xE00 ∧
    0x200 + min (List.replicate 4000 (1 : Byte)).length 0xE00 ≤ 0x1000 := by decide +kernel

theorem witness_AccessorsRangeCheck :
    readMem 0xFFF mid = .ok 0 ∧ readMem 0x1000 mid = .error .outOfRangeAccess ∧
    pixelAt 8191 mid = .ok false ∧ pixelAt 8192 mid = .error .outOfRangeAccess ∧
    pixelAt 2047 State.reset = .ok false ∧ pixelAt 2048 State.reset = .error .outOfRangeAccess ∧
    readV 15 mid = .ok 0 ∧ isKey 16 mid = .error .outOfRangeAccess := by decide +kernel

theorem witness_DisassemblerAgreesWithDecode :
    legalPc mid.pc.toNat = true ∧ fetchDecode mid = .ok (.ldKk 0xA 2, mid.advanced) ∧
    fetchDecode (State.reset.withFetchWord 16 0x5121) =
      .error (.invalidOpcode (State.reset.withFetchWord 16 0x5121).advanced) := by decide +kernel

end Sys2Proof.Tests
end

/-! Support for the invariant: one lemma for each kind of update a legal state goes through, then what an instruction,
a step and each operation of the host keep. -/

namespace Sys2Proof.Machine

/-! ## Updates of a legal state -/

/-- The part of the state `State.Inv` reads. -/
def State.checked (s : State) : Word × Word × BitVec 5 × Vector Word 16 × Bool × Config × List Host.Cell :=
  (s.pc, s.I, s.SP, s.stack, s.highRes, s.cfg, s.mem)

theorem State.Inv.of_checked_eq {s t : State} (hs : s.Inv) (h : t.checked = s.checked) : t.Inv := by
  obtain ⟨hpc, hindex, hstack, hgate, hmem⟩ := hs
  simp only [State.checked, Prod.mk.injEq] at h
  obtain ⟨epc, eI, eSP, estack, ehigh, ecfg, emem⟩ := h
  refine ⟨?_, ?_, ?_, ?_, ?_⟩
  · rwa [epc]
  · rwa [eI]
  · rwa [State.stackOk, eSP, estack]
  · rwa [ehigh, ecfg]
  · rwa [ecfg, emem]

theorem State.checked_onActive (s : State) (f : {w h : Nat} → Frame w h → Frame w h) :
    (s.onActive f).checked = s.checked := by
  simp [State.checked]

theorem State.checked_plot (s : State) (ps : List Nat) : (s.plot ps).1.checked = s.checked := by
  simp [State.checked]

theorem State.Inv.setPc {s : State} (hs : s.Inv) {n : Nat} (hn : legalPc n = true) :
    ({ s with pc := BitVec.ofNat 16 n } : State).Inv := by
  have hmod : (BitVec.ofNat 16 n).toNat = n := by
    have := (legalPc_iff n).1 hn
    simp only [BitVec.toNat_ofNat]; omega
  exact ⟨by rwa [hmod], hs.index, hs.stack, hs.gate, hs.mem⟩

/-- `SetI` masks (R27). -/
theorem State.Inv.setI {s : State} (hs : s.Inv) (v : Nat) : (s.setI v).Inv := by
  refine ⟨hs.pc, ?_, hs.stack, hs.gate, hs.mem⟩
  simp only [State.setI_I, BitVec.toNat_ofNat]; omega

theorem State.Inv.poke {s : State} (hs : s.Inv) {a : Nat} {bs : List Byte} (ha : a + bs.length ≤ 0x1000) :
    (s.poke a bs).Inv :=
  ⟨hs.pc, hs.index, hs.stack, hs.gate, s.poke_wf a bs hs.mem ha⟩

/-- A push of a return address: `pc` is past the `CALL`, so at least 0x202. -/
theorem State.Inv.pushPc {s : State} (hs : s.Inv) (hpc : 0x202 ≤ s.pc.toNat) (hSP : s.SP.toNat < 16) :
    ({ s with stack := s.stack.setIfInBounds s.SP.toNat s.pc, SP := s.SP + 1 } : State).Inv := by
  have hdepth : (s.SP + 1).toNat = s.SP.toNat + 1 := by bv_omega
  refine ⟨hs.pc, hs.index, ⟨?_, fun j hj => ?_⟩, hs.gate, hs.mem⟩
  · rw [hdepth]; omega
  · simp only [hdepth] at hj
    rw [getD_setIfInBounds]
    by_cases hnew : s.SP.toNat = j ∧ j < 16
    · rw [if_pos hnew]; exact ⟨hs.pc, hpc⟩
    · rw [if_neg hnew]; exact hs.stack.2 j (by omega)

theorem State.Inv.popSP {s : State} (hs : s.Inv) (hSP : s.SP ≠ 0) : ({ s with SP := s.SP - 1 } : State).Inv := by
  have hdepth : (s.SP - 1).toNat = s.SP.toNat - 1 := by bv_omega
  obtain ⟨hle, hlive⟩ := hs.stack
  refine ⟨hs.pc, hs.index, ⟨?_, fun j hj => hlive j ?_⟩, hs.gate, hs.mem⟩
  · rw [hdepth]; omega
  · simp only [hdepth] at hj; omega

theorem State.advanced_pc_toNat {s : State} (h : legalPc (s.pc.toNat + 2) = true) :
    s.advanced.pc.toNat = s.pc.toNat + 2 := by
  have := (legalPc_iff _).1 h
  rw [State.advanced_pc]; bv_omega

theorem State.Inv.advanced {s : State} (hs : s.Inv) (h : legalPc (s.pc.toNat + 2) = true) : s.advanced.Inv :=
  ⟨by rwa [State.advanced_pc_toNat h], hs.index, hs.stack, hs.gate, hs.mem⟩

theorem keyWaitCheck_inv {s : State} (hs : s.Inv) : (keyWaitCheck s).Inv := by
  unfold keyWaitCheck
  split
  · exact hs.of_checked_eq rfl
  · exact hs

/-! ## Instructions and steps -/

/-- Every next state an instruction can answer from a legal state past a fetch is legal. -/
theorem nextShape_inv {s t : State} {i : Instr} (hs : s.Inv) (hpc : 0x202 ≤ s.pc.toNat) (h : nextShape s t i) :
    t.Inv := by
  cases i with
  | halt | exit =>
    obtain rfl := h
    exact hs
  | cls | ldXK | ldDtX | ldStX | ldRX | ldXR =>
    obtain rfl := h
    exact hs.of_checked_eq rfl
  | ldKk | addKk | ldXy | or | and | xor | ldXDt | rnd =>
    obtain ⟨_, rfl⟩ := h
    exact hs.of_checked_eq rfl
  | addXy | sub | subn | shr | shl =>
    obtain ⟨_, _, rfl⟩ := h
    exact hs.of_checked_eq rfl
  | ldXMem =>
    obtain ⟨_, _, rfl⟩ := h
    exact hs.of_checked_eq rfl
  | scd | scr | scl =>
    obtain ⟨_, rfl⟩ := h
    exact hs.of_checked_eq (s.checked_onActive _)
  | drw =>
    obtain ⟨ps, _, rfl⟩ := h
    exact hs.of_checked_eq (s.checked_plot ps)
  | low =>
    obtain rfl := h
    exact ⟨hs.pc, hs.index, hs.stack, fun h => absurd h Bool.false_ne_true, hs.mem⟩
  | high =>
    obtain ⟨hgate, rfl⟩ := h
    exact ⟨hs.pc, hs.index, hs.stack, fun _ => hgate, hs.mem⟩
  | sys | jp | jpV0 =>
    obtain ⟨rfl, hn⟩ := h
    exact hs.setPc hn
  | seKk | sneKk | seXy | sneXy | skp | sknp =>
    obtain rfl | ⟨rfl, hn⟩ := h
    · exact hs
    · exact hs.setPc hn
  | call =>
    obtain ⟨rfl, hn, hSP⟩ := h
    exact (hs.pushPc hpc hSP).setPc hn
  | ret =>
    obtain ⟨rfl, hSP, hn⟩ := h
    simpa using (hs.popSP hSP).setPc hn
  | ldI =>
    obtain rfl := h
    exact hs.setI _
  | ldFX =>
    obtain ⟨v, rfl⟩ := h
    exact hs.setI v
  | addIX =>
    obtain ⟨v, _, rfl⟩ := h
    exact (hs.setI v).of_checked_eq rfl
  | ldBX | ldMemX =>
    obtain ⟨bs, rfl, _, hlen⟩ := h
    exact hs.poke hlen

theorem stateOf_exec_inv {s : State} (i : Instr) (r : State) (hs : s.Inv) (hpc : 0x202 ≤ s.pc.toNat) (hr : r.Inv) :
    (stateOf (exec i s) r).Inv := by
  cases h : exec i s with
  | next t => exact nextShape_inv hs hpc (exec_next_shape h)
  | fault f =>
    change f.after.Inv
    rwa [exec_fault_after h]
  | refused _ => exact hr

theorem fetchDecode_error_inv {s : State} {f : Fault} (hs : s.Inv) (h : fetchDecode s = .error f) : f.after.Inv := by
  obtain rfl | ⟨rfl, hp⟩ := fetchDecode_error h
  · exact hs
  · exact hs.advanced hp

/-- Whatever a step answers, the state it leaves is legal (R276 for the faults). -/
theorem stateAfter_inv {s : State} (hs : s.Inv) : (stateAfter s).Inv := by
  unfold stateAfter
  obtain ⟨-, e⟩ | ⟨-, f, hf, e⟩ | ⟨-, i, -, hp, e⟩ := step_cases s <;> rw [e]
  · exact keyWaitCheck_inv hs
  · exact fetchDecode_error_inv hs hf
  · have hpc := (legalPc_iff _).1 hs.pc
    exact stateOf_exec_inv i s (hs.advanced hp) (by rw [State.advanced_pc_toNat hp]; omega) hs

end Sys2Proof.Machine

/-! `stepWith` beside `step`: they differ in `RND` alone. -/

namespace Sys2Proof.Machine

theorem stepWith_of_rnd {s s' : State} {x : Nib} {kk : Byte} (b : Byte) (hw : s.waiting = false)
    (h : fetchDecode s = .ok (.rnd x kk, s')) : stepWith b s = .next (randomInto b x kk s') := by
  simp only [stepWith, hw, h, Bool.false_eq_true, if_false]

theorem stepWith_of_waiting {s : State} (b : Byte) (hw : s.waiting = true) :
    stepWith b s = .next (keyWaitCheck s) := by
  rw [stepWith, if_pos hw]

theorem stepWith_of_error {s : State} {f : Fault} (b : Byte) (hw : s.waiting = false)
    (h : fetchDecode s = .error f) : stepWith b s = .fault f := by
  simp only [stepWith, hw, h, Bool.false_eq_true, if_false]

theorem stepWith_of_not_rnd {s s' : State} {i : Instr} (b : Byte) (hw : s.waiting = false)
    (h : fetchDecode s = .ok (i, s')) (hi : ∀ x kk, i ≠ .rnd x kk) : stepWith b s = exec i s' := by
  cases i with
  | rnd x kk => exact absurd rfl (hi x kk)
  | _ => simp only [stepWith, hw, h, Bool.false_eq_true, if_false]

theorem stepWith_eq_step {s : State} (b : Byte)
    (h : s.waiting = true ∨ ∀ x kk s', fetchDecode s ≠ .ok (.rnd x kk, s')) : stepWith b s = step s := by
  obtain ⟨hw, e⟩ | ⟨hw, f, hf, e⟩ | ⟨hw, i, hf, -, e⟩ := step_cases s
  · rw [e, stepWith_of_waiting b hw]
  · rw [e, stepWith_of_error b hw hf]
  · have hrnd := h.resolve_left (by rw [hw]; exact Bool.false_ne_true)
    rw [e, stepWith_of_not_rnd b hw hf fun x kk hi => hrnd x kk _ (hi ▸ hf)]

/-- A step on a given byte is the step that draws for itself, or it runs `RND`. -/
theorem stepWith_cases (b : Byte) (s : State) :
    stepWith b s = step s ∨
    (s.waiting = false ∧ ∃ x kk, fetchDecode s = .ok (.rnd x kk, s.advanced) ∧ legalPc (s.pc.toNat + 2) = true) := by
  by_cases h : s.waiting = true ∨ ∀ x kk s', fetchDecode s ≠ .ok (.rnd x kk, s')
  · exact .inl (stepWith_eq_step b h)
  · push Not at h
    obtain ⟨hw, x, kk, s', hf⟩ := h
    obtain ⟨rfl, hp⟩ := fetchDecode_ok hf
    exact .inr ⟨by simpa using hw, x, kk, hf, hp⟩

/-- Settles O11: outside `RND` the two steps are one, and in `RND` the meaning's own draw is `freeRnd s.draws`. -/
theorem stepIsStepWithAFreeDraw : Obligations.StepIsStepWithAFreeDraw := by
  refine ⟨fun s => ?_, fun s b h => stepWith_eq_step b h⟩
  obtain e | ⟨hw, x, kk, hf, -⟩ := stepWith_cases (Config.freeRnd s.draws) s
  · rw [e]
  · rw [stepWith_of_rnd _ hw hf, step_of_ok hw hf]
    rfl

end Sys2Proof.Machine

/-! The invariant along every sequence of host operations. -/

namespace Sys2Proof.Machine

theorem stateOf_stepWith_inv {s : State} (b : Byte) (hs : s.Inv) : (stateOf (stepWith b s) s).Inv := by
  obtain e | ⟨hw, x, kk, hf, hp⟩ := stepWith_cases b s
  · rw [e]; exact stateAfter_inv hs
  · rw [stepWith_of_rnd b hw hf]
    exact (hs.advanced hp).of_checked_eq rfl

/-- `reset` makes a state legal whatever it was, as long as memory is canonical. -/
theorem hostReset_inv (c : Bool) {s : State} (hm : Memory.wf s.cfg s.mem) : (hostReset c s).Inv where
  pc := (by decide : legalPc (0x200 : Word).toNat = true)
  index := Nat.zero_le 0xFFF
  stack := ⟨Nat.zero_le 16, fun _ hj => absurd hj (Nat.not_lt_zero _)⟩
  gate h := absurd h Bool.false_ne_true
  mem := by
    cases c
    · exact Memory.filter_wf s.cfg s.mem _ hm
    · exact ⟨.nil, fun _ hc => absurd hc List.not_mem_nil⟩

/-- The bytes past 0xE00 are dropped (R327), so the rest ends inside memory. -/
theorem loadProgram_inv (bytes : List Byte) {s : State} (hs : s.Inv) : (loadProgram bytes s).Inv :=
  hs.poke (by rw [List.length_take]; omega)

theorem tick_inv {s : State} (hs : s.Inv) : (tick s).Inv := hs.of_checked_eq rfl

theorem setKey_inv {s t : State} {index : Nat} {pressed : Bool} (hs : s.Inv) (h : setKey index pressed s = .ok t) :
    t.Inv := by
  unfold setKey at h
  split at h
  · obtain rfl := Except.ok.inj h
    exact hs.of_checked_eq rfl
  · cases h

theorem HostOp.apply_inv (op : HostOp) {s : State} (hs : s.Inv) : (op.apply s).Inv := by
  cases op with
  | reset c => exact hostReset_inv c hs.mem
  | loadProgram bytes => exact loadProgram_inv bytes hs
  | step b => exact stateOf_stepWith_inv b hs
  | tick => exact tick_inv hs
  | setKey index pressed =>
    rw [HostOp.apply]
    split
    · exact setKey_inv hs ‹_›
    · exact hs

/-- A property every operation keeps holds after every sequence of them. -/
theorem applyAll_induction {P : State → Prop} (hop : ∀ (op : HostOp) (s : State), P s → P (op.apply s))
    (ops : List HostOp) {s : State} (hs : P s) : P (applyAll ops s) :=
  List.foldlRecOn ops _ hs fun t ht op _ => hop op t ht

/-- Settles O16, by induction on the operations: each of them keeps the invariant. -/
theorem hostOperationsKeepTheInvariant : Obligations.HostOperationsKeepTheInvariant :=
  fun ops _ hs => applyAll_induction (fun op _ => op.apply_inv) ops hs

end Sys2Proof.Machine

/-! The invariant at reset and along one step. -/

namespace Sys2Proof.Machine

/-- A launched core is in a state `reset(true)` would leave as it is. -/
theorem hostReset_launch (cfg : Config) (bank : Vector Byte 16) :
    hostReset true (State.launch cfg bank) = State.launch cfg bank := rfl

theorem launch_inv (cfg : Config) (bank : Vector Byte 16) : (State.launch cfg bank).Inv :=
  hostReset_launch cfg bank ▸ hostReset_inv true (Memory.wf_nil cfg)

/-- Settles O17: the reset state is a launch, and a launch is a reset of itself. -/
theorem resetIsLegal : Obligations.ResetIsLegal :=
  ⟨launch_inv {} (Vector.replicate 16 0), launch_inv, fun c _ hm => hostReset_inv c hm⟩

/-- Settles O15: the next state is the state the step leaves. -/
theorem stepKeepsTheInvariant : Obligations.StepKeepsTheInvariant := by
  intro s t hs h
  have hleft : stateAfter s = t := by rw [stateAfter, h]; rfl
  exact hleft ▸ stateAfter_inv hs

end Sys2Proof.Machine

/-! What an instruction writes, read off the shape of its next state. -/

namespace Sys2Proof.Machine

/-! ## Registers -/

theorem flagByte_zero_or_one (c : Bool) : flagByte c = 0 ∨ flagByte c = 1 := by
  cases c
  · exact .inl rfl
  · exact .inr rfl

theorem State.getV_setFlag_same (s : State) (c : Bool) : (s.setFlag c).getV 15 = flagByte c := by
  rw [State.getV_setFlag, if_pos rfl]

/-- An overwrite of the first registers stops where its bytes do. -/
theorem getElem_overwrite_of_length_le (bank : Vector Byte 16) (bs : List Byte) {r : Nib} (h : bs.length ≤ r.val) :
    (overwrite bank 0 bs)[r] = bank[r] := by
  have hread := getElem_overwrite bs bank 0 r.val r.isLt
  rwa [if_pos (Nat.zero_le _), Nat.sub_zero, List.getD_eq_default _ _ h] at hread

/-- R22: a register outside the instruction's own row keeps its value. -/
theorem nextShape_getV {s t : State} {i : Instr} {r : Nib} (h : nextShape s t i) (hr : ¬writesV i r) :
    t.getV r = s.getV r := by
  cases i with
  | ldKk | addKk | ldXy | or | and | xor | ldXDt | rnd =>
    obtain ⟨_, rfl⟩ := h
    exact (State.getV_setV ..).trans (if_neg hr)
  | addXy | sub | subn | shr | shl =>
    obtain ⟨_, _, rfl⟩ := h
    obtain ⟨hx, hflag⟩ := not_or.1 hr
    rw [State.getV_setFlag, if_neg hflag, State.getV_setV, if_neg hx]
  | drw =>
    obtain ⟨_, _, rfl⟩ := h
    exact (State.getV_setFlag ..).trans ((if_neg hr).trans (State.getV_plot ..))
  | addIX =>
    obtain ⟨_, _, rfl⟩ := h
    exact (State.getV_setFlag ..).trans ((if_neg hr).trans (State.getV_setI ..))
  | ldXMem x =>
    obtain ⟨bs, hlen, rfl⟩ := h
    exact getElem_overwrite_of_length_le _ _ (hlen ▸ Nat.lt_of_not_le hr)
  | ldXR x =>
    obtain rfl := h
    exact getElem_overwrite_of_length_le _ _ (firstRegs_length s.R x ▸ Nat.lt_of_not_le hr)
  | scd | scr | scl =>
    obtain ⟨_, rfl⟩ := h
    exact State.getV_eq (State.onActive_V ..) r
  | seKk | sneKk | seXy | sneXy | skp | sknp =>
    obtain rfl | ⟨rfl, _⟩ := h <;> rfl
  | halt | exit | cls | low | ldI | ldXK | ldDtX | ldStX | ldRX =>
    obtain rfl := h
    rfl
  | high | ldFX =>
    obtain ⟨_, rfl⟩ := h
    rfl
  | ret | sys | jp | jpV0 | call =>
    obtain ⟨rfl, _⟩ := h
    rfl
  | ldBX | ldMemX =>
    obtain ⟨_, rfl, _⟩ := h
    rfl

/-- Settles O21: the flag is the last byte all seven instructions write (R24). -/
theorem flagsAreZeroOrOne : Obligations.FlagsAreZeroOrOne := by
  intro s t x y n i hi h
  have hshape := exec_next_shape h
  have hflag : ∃ (u : State) (c : Bool), t = u.setFlag c := by
    simp only [List.mem_cons, List.not_mem_nil, or_false] at hi
    obtain rfl | rfl | rfl | rfl | rfl | rfl | rfl := hi
    all_goals
      obtain ⟨_, c, rfl⟩ := hshape
      exact ⟨_, c, rfl⟩
  obtain ⟨u, c, rfl⟩ := hflag
  rw [State.getV_setFlag_same]
  exact flagByte_zero_or_one c

/-! ## The rest of the state -/

/-- Settles O19: every piece the next state's shape does not update is read through to the state before. -/
theorem onlyNamedInstructionsWrite : Obligations.OnlyNamedInstructionsWrite := by
  intro i s t h
  have hshape := exec_next_shape h
  refine ⟨fun r => nextShape_getV hshape, ?_⟩
  cases i with
  | halt | exit | low | ldI | ldXK | ldDtX | ldStX | ldRX | ldXR =>
    obtain rfl := hshape
    simp
  | cls =>
    obtain rfl := hshape
    simp [clearScreen]
  | ldKk | addKk | ldXy | or | and | xor | ldXDt | rnd | scd | scr | scl | high | ldFX =>
    obtain ⟨_, rfl⟩ := hshape
    simp
  | addXy | sub | subn | shr | shl | drw | addIX | ldXMem =>
    obtain ⟨_, _, rfl⟩ := hshape
    simp
  | sys | jp | jpV0 | call | ret =>
    obtain ⟨rfl, _⟩ := hshape
    simp
  | seKk | sneKk | seXy | sneXy | skp | sknp =>
    obtain rfl | ⟨rfl, _⟩ := hshape <;> simp
  | ldBX | ldMemX =>
    obtain ⟨_, rfl, _⟩ := hshape
    simp

end Sys2Proof.Machine

/-! State that no instruction reads: an instruction commutes with every change of it. -/

namespace Sys2Proof.Machine

/-- A change of the sound timer, of the latch and of the count of draws, each by a function of its old value. -/
structure UnreadChange where
  ST : Byte → Byte := id
  latchValid : Bool → Bool := id
  latchKey : Nib → Nib := id
  draws : Nat → Nat := id

/-- The state with the change made. -/
def UnreadChange.on (u : UnreadChange) (s : State) : State :=
  { s with ST := u.ST s.ST, latchValid := u.latchValid s.latchValid, latchKey := u.latchKey s.latchKey,
           draws := u.draws s.draws }

/-- The change is of nothing the instruction writes or takes: `LD ST, Vx` writes the timer, `LD Vx, K` drops the latched
press, `RND` takes the draw. -/
def UnreadChange.avoids (u : UnreadChange) : Instr → Prop
  | .ldStX _ => u.ST = id
  | .ldXK _ => u.latchValid = id
  | .rnd _ _ => u.draws = id
  | _ => True

namespace UnreadChange

/-! ## The shared operations -/

theorem raise_on (u : UnreadChange) (e : FaultCode) (s : State) : raise e (u.on s) = mapOut u.on (raise e s) := by
  cases e <;> rfl

theorem andThen_on (u : UnreadChange) {k : State → Out} (hk : ∀ s, k (u.on s) = mapOut u.on (k s)) (o : Out) :
    andThen (mapOut u.on o) k = mapOut u.on (andThen o k) := by
  cases o with
  | next s => exact hk s
  | fault f => cases f <;> rfl
  | refused r => rfl

theorem whenSuper_on (u : UnreadChange) (s : State) (o : Out) :
    whenSuper (u.on s) (mapOut u.on o) = mapOut u.on (whenSuper s o) := by
  rw [whenSuper, whenSuper, apply_ite (mapOut u.on), raise_on]
  rfl

theorem writePc_on (u : UnreadChange) (t : Nat) (s : State) : writePc t (u.on s) = mapOut u.on (writePc t s) := by
  rw [writePc, writePc, apply_ite (mapOut u.on), raise_on]
  rfl

theorem skipIf_on (u : UnreadChange) (c : Bool) (s : State) : skipIf c (u.on s) = mapOut u.on (skipIf c s) := by
  cases c
  · rfl
  · exact u.writePc_on _ s

theorem push_on (u : UnreadChange) (v : Word) (s : State) : push v (u.on s) = mapOut u.on (push v s) := by
  rw [push, push, apply_ite (mapOut u.on), raise_on]
  rfl

theorem pop_on (u : UnreadChange) (s : State) : pop (u.on s) = mapOut u.on (pop s) := by
  rw [pop, pop, apply_ite (mapOut u.on), raise_on]
  rfl

theorem memWrites_on (u : UnreadChange) (a : Nat) (bs : List Byte) (s : State) :
    memWrites a bs (u.on s) = mapOut u.on (memWrites a bs s) := by
  rw [memWrites, memWrites, apply_ite (mapOut u.on), raise_on]
  rfl

theorem onActive_on (u : UnreadChange) (f : {w h : Nat} → Frame w h → Frame w h) (s : State) :
    (u.on s).onActive f = u.on (s.onActive f) := by
  rw [State.onActive, State.onActive, apply_ite u.on]
  rfl

theorem plot_on (u : UnreadChange) (ps : List Nat) (s : State) :
    (u.on s).plot ps = (u.on (s.plot ps).1, (s.plot ps).2) := by
  rw [State.plot, State.plot]
  change (if s.highRes = true then _ else _) = _
  split <;> rfl

/-! ## The meanings -/

theorem execRet_on (u : UnreadChange) (s : State) : execRet (u.on s) = mapOut u.on (execRet s) := by
  rw [execRet, execRet, apply_ite (mapOut u.on), raise_on, writePc_on, u.andThen_on u.pop_on]
  rfl

theorem execCall_on (u : UnreadChange) (nnn : Addr) (s : State) :
    execCall nnn (u.on s) = mapOut u.on (execCall nnn s) := by
  rw [execCall, execCall, push_on, u.andThen_on (u.writePc_on _), raise_on, raise_on,
    apply_ite (mapOut u.on), apply_ite (mapOut u.on)]
  rfl

theorem execSkp_on (u : UnreadChange) (x : Nib) (s : State) : execSkp x (u.on s) = mapOut u.on (execSkp x s) := by
  obtain h | h := Nat.lt_or_ge (s.getV x).toNat 16
  · rw [execSkp_of_lt (s := u.on s) h, execSkp_of_lt h]
    exact u.skipIf_on _ s
  · rw [execSkp_of_ge (s := u.on s) h, execSkp_of_ge h]
    rfl

theorem execSknp_on (u : UnreadChange) (x : Nib) (s : State) : execSknp x (u.on s) = mapOut u.on (execSknp x s) := by
  obtain h | h := Nat.lt_or_ge (s.getV x).toNat 16
  · rw [execSknp_of_lt (s := u.on s) h, execSknp_of_lt h]
    exact u.skipIf_on _ s
  · rw [execSknp_of_ge (s := u.on s) h, execSknp_of_ge h]
    rfl

theorem execDrw_on (u : UnreadChange) (x y n : Nib) (s : State) :
    execDrw x y n (u.on s) = mapOut u.on (execDrw x y n s) := by
  by_cases h : n = 0 ∨ s.I.toNat + (n.val - 1) ≤ 0xFFF
  · rw [execDrw_of_good (s := u.on s) h, execDrw_of_good h, plot_on]
    rfl
  · have hbad : n ≠ 0 ∧ 0xFFF < s.I.toNat + (n.val - 1) := (not_or.1 h).imp_right Nat.lt_of_not_le
    rw [execDrw_of_bad (s := u.on s) hbad, execDrw_of_bad hbad]
    rfl

theorem execLdXMem_on (u : UnreadChange) (x : Nib) (s : State) :
    execLdXMem x (u.on s) = mapOut u.on (execLdXMem x s) := by
  obtain h | h := Nat.lt_or_ge 0xFFF (s.I.toNat + x.val)
  · rw [execLdXMem_of_bad (s := u.on s) h, execLdXMem_of_bad h]
    rfl
  · rw [execLdXMem_of_good (s := u.on s) h, execLdXMem_of_good h]
    rfl

/-- A scroll of the active framebuffer behind the gate. -/
theorem whenSuper_onActive_on (u : UnreadChange) (f : {w h : Nat} → Frame w h → Frame w h) (s : State) :
    whenSuper (u.on s) (.next ((u.on s).onActive f)) = mapOut u.on (whenSuper s (.next (s.onActive f))) := by
  rw [onActive_on]
  exact u.whenSuper_on s (.next (s.onActive f))

/-- Making the change first or last is the same to every instruction that does not write or take what it changes. -/
theorem exec_on (u : UnreadChange) (i : Instr) (s : State) (hu : u.avoids i) :
    exec i (u.on s) = mapOut u.on (exec i s) := by
  cases i with
  | halt | cls | ldKk | addKk | ldXy | or | and | xor | addXy | sub | shr | subn | shl | ldI | ldXDt | ldDtX | addIX
  | ldFX => rfl
  | exit => exact u.whenSuper_on s (.next s)
  | low => exact u.whenSuper_on s (.next { s with highRes := false })
  | high => exact u.whenSuper_on s (.next { s with highRes := true })
  | ldRX x => exact u.whenSuper_on s (.next { s with R := overwrite s.R 0 (firstRegs s.V x) })
  | ldXR x => exact u.whenSuper_on s (.next { s with V := overwrite s.V 0 (firstRegs s.R x) })
  | scd | scr | scl => exact u.whenSuper_onActive_on _ s
  | sys | jp | jpV0 => exact u.writePc_on _ s
  | seKk | sneKk | seXy | sneXy => exact u.skipIf_on _ s
  | skp x => exact u.execSkp_on x s
  | sknp x => exact u.execSknp_on x s
  | call nnn => exact u.execCall_on nnn s
  | ret => exact u.execRet_on s
  | drw x y n => exact u.execDrw_on x y n s
  | ldBX | ldMemX => exact u.memWrites_on _ _ s
  | ldXMem x => exact u.execLdXMem_on x s
  | ldStX | ldXK | rnd =>
    obtain ⟨_, _, _, _⟩ := u
    obtain rfl := hu
    rfl

end UnreadChange

/-- Settles O20: each of the three changes is one an instruction commutes with unless it is a named exception. -/
theorem unreadStateHasNoInfluence : Obligations.UnreadStateHasNoInfluence := by
  refine fun i s => ⟨fun b hi => ?_, fun v k hi => ?_, fun d hi => ?_⟩
  · refine UnreadChange.exec_on { ST := fun _ => b } i s ?_
    cases i with
    | ldStX x => exact absurd rfl (hi x)
    | ldXK | rnd => rfl
    | _ => trivial
  · refine UnreadChange.exec_on { latchValid := fun _ => v, latchKey := fun _ => k } i s ?_
    cases i with
    | ldXK x => exact absurd rfl (hi x)
    | ldStX | rnd => rfl
    | _ => trivial
  · refine UnreadChange.exec_on { draws := fun _ => d } i s ?_
    cases i with
    | rnd x kk => exact absurd rfl (hi x kk)
    | ldStX | ldXK => rfl
    | _ => trivial

end Sys2Proof.Machine

/-! What an instruction does to memory: nothing, or one store inside program space (R64). -/

namespace Sys2Proof.Machine

/-- Only the two stores write memory, and neither lets an address below 0x200 or above 0xFFF through. -/
theorem exec_peek_eq_or_poke {i : Instr} {s t : State} (h : exec i s = .next t) :
    (∀ a, t.peek a = s.peek a) ∨
    ∃ bs, t = s.poke s.I.toNat bs ∧ 0x200 ≤ s.I.toNat ∧ s.I.toNat + bs.length ≤ 0x1000 := by
  obtain ⟨-, -, -, -, -, -, -, hwrites, -, -, -, -, -, -, hcfg⟩ := onlyNamedInstructionsWrite i s t h
  by_cases hmem : t.mem = s.mem
  · exact .inl (State.peek_eq hmem hcfg)
  · obtain ⟨x, rfl⟩ | ⟨x, rfl⟩ := hwrites hmem
    · exact .inr (exec_next_shape (i := .ldBX x) h)
    · exact .inr (exec_next_shape (i := .ldMemX x) h)

theorem State.peek_poke_of_lt {s : State} {a a' : Nat} {bs : List Byte} (hm : Memory.wf s.cfg s.mem)
    (hlen : a + bs.length ≤ 0x1000) (h : a' < a) : (s.poke a bs).peek a' = s.peek a' := by
  rw [State.peek_poke s a a' bs hm hlen, if_neg (Nat.not_le.2 h)]

/-- R65: an instruction's next state has the protected bytes unchanged. -/
theorem exec_peek_of_lt {i : Instr} {s t : State} {a : Nat} (hm : Memory.wf s.cfg s.mem) (ha : a < 0x200)
    (h : exec i s = .next t) : t.peek a = s.peek a := by
  obtain hsame | ⟨bs, rfl, hlow, hlen⟩ := exec_peek_eq_or_poke h
  · exact hsame a
  · exact State.peek_poke_of_lt hm hlen (Nat.lt_of_lt_of_le ha hlow)

@[simp] theorem peek_keyWaitCheck (s : State) (a : Nat) : (keyWaitCheck s).peek a = s.peek a := by
  unfold keyWaitCheck
  split <;> rfl

theorem peek_after_of_fetchDecode_error {s : State} {f : Fault} (h : fetchDecode s = .error f) (a : Nat) :
    f.after.peek a = s.peek a := by
  obtain rfl | ⟨rfl, -⟩ := fetchDecode_error h
  · rfl
  · exact s.peek_advanced a

/-- Settles O18: only a step that completes an instruction can write memory, and its stores start at 0x200 or above. -/
theorem protectedMemoryIsNeverWritten : Obligations.ProtectedMemoryIsNeverWritten := by
  intro s a hm ha
  unfold stateAfter
  obtain ⟨-, e⟩ | ⟨-, f, hf, e⟩ | ⟨-, i, -, -, e⟩ := step_cases s <;> rw [e]
  · exact peek_keyWaitCheck s a
  · exact peek_after_of_fetchDecode_error hf a
  · cases h : exec i s.advanced with
    | next t => exact exec_peek_of_lt (s := s.advanced) hm ha h
    | fault f =>
      change f.after.peek a = s.peek a
      rw [exec_fault_after h, State.peek_advanced]
    | refused _ => rfl

end Sys2Proof.Machine

/-! A store into program space, as the next fetch reads it (R72, D29). -/

namespace Sys2Proof.Machine

theorem exec_ldMemX_next {s t : State} {x : Nib} (h : exec (.ldMemX x) s = .next t) :
    0x200 ≤ s.I.toNat ∧ s.I.toNat + x.val ≤ 0xFFF ∧ t = s.poke s.I.toNat (firstRegs s.V x) := by
  change execLdMemX x s = .next t at h
  obtain ⟨hlow, htop, e⟩ | ⟨-, e⟩ := execLdMemX_cases s x
  · exact ⟨hlow, htop, Host.Outcome.next.inj (h.symm.trans e)⟩
  · exact absurd (h.symm.trans e) nofun

/-- A block of stored registers reads back register by register. -/
theorem peek_poke_firstRegs {s : State} {a : Nat} {x r : Nib} (hm : Memory.wf s.cfg s.mem) (ha : a + x.val ≤ 0xFFF)
    (hr : r ≤ x) : (s.poke a (firstRegs s.V x)).peek (a + r.val) = s.getV r := by
  have hlen : a + (firstRegs s.V x).length ≤ 0x1000 := by rw [firstRegs_length]; omega
  rw [State.peek_poke s a _ _ hm hlen, if_pos (Nat.le_add_right ..), Nat.add_sub_cancel_left, firstRegs_getD, if_pos hr]
  rfl

theorem fetch_eq_some {s : State} (h : s.pc.toNat + 1 ≤ 0xFFF) :
    fetch s = some (wordOfBytes (s.peek s.pc.toNat) (s.peek (s.pc.toNat + 1))) := by
  rw [fetch, memRead_eq_some (by omega), memRead_eq_some h]

/-- Settles O52: the store leaves `pc`, so the fetch reads the two stored registers back from the addresses at `pc`. -/
theorem storedWordIsFetchedNext : Obligations.StoredWordIsFetchedNext := by
  intro s t x j k hm _ h hj hk hkx
  obtain ⟨-, htop, rfl⟩ := exec_ldMemX_next h
  have hk' : s.pc.toNat + 1 = s.I.toNat + k.val := by omega
  have hkx' : k.val ≤ x.val := hkx
  have hjx : j ≤ x := Fin.le_def.2 (by omega)
  rw [fetch_eq_some (by rw [State.poke_pc]; omega), State.poke_pc, hk', hj,
    peek_poke_firstRegs hm htop hjx, peek_poke_firstRegs hm htop hkx]

end Sys2Proof.Machine

/-! The round trip between words and instructions (spec/30_encoding.md R90 to R92, R94, R100). -/

namespace Sys2Proof

/-! ## Decoding an encoded instruction -/

/-- The round trip of every row of the table. -/
theorem roundTrip : ∀ i : Instr, Laws.RoundTrip.Statement i
  | .halt => Laws.RoundTrip.halt
  | .cls ign => Laws.RoundTrip.cls ign
  | .ret ign => Laws.RoundTrip.ret ign
  | .scd ign n => Laws.RoundTrip.scd ign n
  | .scr ign => Laws.RoundTrip.scr ign
  | .scl ign => Laws.RoundTrip.scl ign
  | .exit ign => Laws.RoundTrip.exit ign
  | .low ign => Laws.RoundTrip.low ign
  | .high ign => Laws.RoundTrip.high ign
  | .sys nnn => Laws.RoundTrip.sys nnn
  | .jp nnn => Laws.RoundTrip.jp nnn
  | .call nnn => Laws.RoundTrip.call nnn
  | .seKk x kk => Laws.RoundTrip.seKk x kk
  | .sneKk x kk => Laws.RoundTrip.sneKk x kk
  | .seXy x y => Laws.RoundTrip.seXy x y
  | .ldKk x kk => Laws.RoundTrip.ldKk x kk
  | .addKk x kk => Laws.RoundTrip.addKk x kk
  | .ldXy x y => Laws.RoundTrip.ldXy x y
  | .or x y => Laws.RoundTrip.or x y
  | .and x y => Laws.RoundTrip.and x y
  | .xor x y => Laws.RoundTrip.xor x y
  | .addXy x y => Laws.RoundTrip.addXy x y
  | .sub x y => Laws.RoundTrip.sub x y
  | .shr x ign => Laws.RoundTrip.shr x ign
  | .subn x y => Laws.RoundTrip.subn x y
  | .shl x ign => Laws.RoundTrip.shl x ign
  | .sneXy x y => Laws.RoundTrip.sneXy x y
  | .ldI nnn => Laws.RoundTrip.ldI nnn
  | .jpV0 nnn => Laws.RoundTrip.jpV0 nnn
  | .rnd x kk => Laws.RoundTrip.rnd x kk
  | .drw x y n => Laws.RoundTrip.drw x y n
  | .skp x => Laws.RoundTrip.skp x
  | .sknp x => Laws.RoundTrip.sknp x
  | .ldXDt x => Laws.RoundTrip.ldXDt x
  | .ldXK x => Laws.RoundTrip.ldXK x
  | .ldDtX x => Laws.RoundTrip.ldDtX x
  | .ldStX x => Laws.RoundTrip.ldStX x
  | .addIX x => Laws.RoundTrip.addIX x
  | .ldFX x => Laws.RoundTrip.ldFX x
  | .ldBX x => Laws.RoundTrip.ldBX x
  | .ldMemX x => Laws.RoundTrip.ldMemX x
  | .ldXMem x => Laws.RoundTrip.ldXMem x
  | .ldRX x => Laws.RoundTrip.ldRX x
  | .ldXR x => Laws.RoundTrip.ldXR x

/-- The round trip with the gate as a parameter. -/
theorem decodeWord_encode {i : Instr} (hi : wellFormed i = true) (g : Bool) :
    decodeWord g (encode i) = if isSuper i = true ∧ g = false then .error .superDisabled else .ok i := by
  obtain ⟨hon, hoff⟩ := roundTrip i hi
  cases g
  · simpa using hoff
  · simpa using hon

/-- Settles O1: the round trip row by row, and bytes decode as the word they hold. -/
theorem decodeOfEncodeIsIdentity : Obligations.DecodeOfEncodeIsIdentity := by
  intro i hi
  obtain ⟨hon, hoff⟩ := roundTrip i hi
  refine ⟨hon, hoff, fun rest => ?_⟩
  rw [decodeBytes_bytesOfWord, hon]
  rfl

/-! ## Encoding a decoded word -/

theorem word4_fields {w : Word} {c k : Nat} (hc : (fieldClass w).val = c) (hk : (fieldV3 w).val = k) :
    word4 c (fieldX w) (fieldY w) k = w := by
  subst hc hk
  apply BitVec.eq_of_toNat_eq
  rw [word4_toNat (fieldClass w).isLt (fieldX w).isLt (fieldY w).isLt (fieldV3 w).isLt, fieldClass_val, fieldX_val,
    fieldY_val, fieldV3_val]
  omega

theorem word211_fields {w : Word} {c k : Nat} (hc : (fieldClass w).val = c) (hk : (fieldKk w).toNat = k) :
    word211 c (fieldX w) k = w := by
  subst hc hk
  apply BitVec.eq_of_toNat_eq
  rw [word211_toNat (fieldClass w).isLt (fieldX w).isLt (fieldKk w).isLt, fieldClass_val, fieldX_val, fieldKk_toNat]
  omega

theorem fieldKk_toNat_of_eq {w : Word} {k : Nat} (h : fieldKk w = BitVec.ofNat 8 k) (hk : k < 256 := by decide) :
    (fieldKk w).toNat = k := by
  rw [h, BitVec.toNat_ofNat, Nat.mod_eq_of_lt hk]

theorem word13_fields {w : Word} {c : Nat} (hc : (fieldClass w).val = c) : word13 c (fieldNnn w).toNat = w := by
  subst hc
  apply BitVec.eq_of_toNat_eq
  rw [word13_toNat (fieldClass w).isLt (fieldNnn w).isLt, fieldClass_val, fieldNnn_toNat]
  omega

/-- The second byte of a class 0 word selects a special instruction exactly when one of R96's tests does. -/
theorem class0Code_fieldNnn (w : Word) : class0Code ((fieldNnn w).setWidth 8) = true ↔
    fieldKk w = 0xE0 ∨ fieldKk w = 0xEE ∨ fieldY w = 0xC ∨ fieldKk w = 0xFB ∨ fieldKk w = 0xFC ∨ fieldKk w = 0xFD ∨
      fieldKk w = 0xFE ∨ fieldKk w = 0xFF := by
  have hkk : (fieldNnn w).setWidth 8 = fieldKk w :=
    BitVec.eq_of_toNat_eq (by simp [fieldNnn_toNat, fieldKk_toNat])
  have hy : (fieldKk w).toNat / 16 = 0xC ↔ fieldY w = 0xC := by
    rw [Fin.ext_iff, fieldY_val, fieldKk_toNat]
    change _ ↔ _ = 12
    omega
  simp [class0Code, hkk, hy, or_assoc]

theorem wellFormed_sys_fieldNnn {w : Word} (hc : (fieldClass w).val = 0) : wellFormed (.sys (fieldNnn w)) = true ↔
    w ≠ 0 ∧ ¬class0Code ((fieldNnn w).setWidth 8) = true := by
  have hw : fieldNnn w ≠ 0 ↔ w ≠ 0 := by
    rw [fieldClass_val] at hc
    rw [← BitVec.toNat_ne_iff_ne, ← BitVec.toNat_ne_iff_ne, fieldNnn_toNat]
    change _ % 0x1000 ≠ 0 ↔ _ ≠ 0
    omega
  rw [wellFormed, Bool.and_eq_true, decide_eq_true_eq, hw, Bool.not_eq_true', Bool.not_eq_true]

/-- Whatever the decoder answered for `w`, an instruction among it encodes back to `w`. -/
def EncodesBack (g : Bool) (w : Word) (r : Except Reject Instr) : Prop :=
  ∀ i, r = .ok i → encode i = w ∧ wellFormed i = true ∧ (isSuper i = true → g = true)

theorem encodesBack_ok {g : Bool} {w : Word} {i : Instr} :
    EncodesBack g w (.ok i) ↔ encode i = w ∧ wellFormed i = true ∧ (isSuper i = true → g = true) := by
  simp [EncodesBack]

theorem encodesBack_error {g : Bool} {w : Word} {e : Reject} : EncodesBack g w (.error e) := nofun

theorem encodesBack_superOnly {g : Bool} {w : Word} {i : Instr} (h : encode i = w) (hi : wellFormed i = true) :
    EncodesBack g w (superOnly g i) := by
  cases g
  · exact encodesBack_error
  · exact encodesBack_ok.2 ⟨h, hi, fun _ => rfl⟩

theorem encodesBack_ite {g : Bool} {w : Word} {c : Prop} [Decidable c] {r r' : Except Reject Instr}
    (h : c → EncodesBack g w r) (h' : ¬c → EncodesBack g w r') : EncodesBack g w (if c then r else r') := by
  split
  · exact h ‹_›
  · exact h' ‹_›

theorem encodesBack_decodeClass0 (g : Bool) {w : Word} (hc : (fieldClass w).val = 0) :
    EncodesBack g w (decodeClass0 g w) := by
  unfold decodeClass0
  split_ifs with h0 hE0 hEE hC hFB hFC hFD hFE hFF
  · exact encodesBack_ok.2 ⟨h0.symm, rfl, nofun⟩
  · exact encodesBack_ok.2 ⟨word211_fields hc (fieldKk_toNat_of_eq hE0), rfl, nofun⟩
  · exact encodesBack_ok.2 ⟨word211_fields hc (fieldKk_toNat_of_eq hEE), rfl, nofun⟩
  · refine encodesBack_superOnly ?_ rfl
    have h := word4_fields hc (k := fieldV3 w) rfl
    rwa [hC] at h
  · exact encodesBack_superOnly (word211_fields hc (fieldKk_toNat_of_eq hFB)) rfl
  · exact encodesBack_superOnly (word211_fields hc (fieldKk_toNat_of_eq hFC)) rfl
  · exact encodesBack_superOnly (word211_fields hc (fieldKk_toNat_of_eq hFD)) rfl
  · exact encodesBack_superOnly (word211_fields hc (fieldKk_toNat_of_eq hFE)) rfl
  · exact encodesBack_superOnly (word211_fields hc (fieldKk_toNat_of_eq hFF)) rfl
  · refine encodesBack_ok.2 ⟨word13_fields hc, (wellFormed_sys_fieldNnn hc).2 ⟨h0, ?_⟩, nofun⟩
    rw [class0Code_fieldNnn]
    simp only [hE0, hEE, hC, hFB, hFC, hFD, hFE, hFF, or_self, not_false_eq_true]

theorem encodesBack_decodeClass8 (g : Bool) {w : Word} (hc : (fieldClass w).val = 8) :
    EncodesBack g w (decodeClass8 w) := by
  unfold decodeClass8
  split
  case h_10 => exact encodesBack_error
  all_goals exact encodesBack_ok.2 ⟨word4_fields hc ‹_›, rfl, nofun⟩

theorem encodesBack_decodeClassE (g : Bool) {w : Word} (hc : (fieldClass w).val = 0xE) :
    EncodesBack g w (decodeClassE w) := by
  unfold decodeClassE
  split_ifs with h9E hA1
  · exact encodesBack_ok.2 ⟨word211_fields hc (fieldKk_toNat_of_eq h9E), rfl, nofun⟩
  · exact encodesBack_ok.2 ⟨word211_fields hc (fieldKk_toNat_of_eq hA1), rfl, nofun⟩
  · exact encodesBack_error

theorem encodesBack_decodeClassF (g : Bool) {w : Word} (hc : (fieldClass w).val = 0xF) :
    EncodesBack g w (decodeClassF g w) := by
  unfold decodeClassF
  iterate 9
    refine encodesBack_ite (fun h => encodesBack_ok.2 ⟨word211_fields hc (fieldKk_toNat_of_eq h), rfl, nofun⟩) fun _ => ?_
  iterate 2
    refine encodesBack_ite (fun h => encodesBack_superOnly (word211_fields hc (fieldKk_toNat_of_eq h)) rfl) fun _ => ?_
  exact encodesBack_error

theorem encodesBack_decodeWord (g : Bool) (w : Word) : EncodesBack g w (decodeWord g w) := by
  unfold decodeWord
  split
  case h_1 h => exact encodesBack_decodeClass0 g h
  case h_9 h => exact encodesBack_decodeClass8 g h
  case h_6 h | h_10 h =>
    split_ifs with hn
    · exact encodesBack_ok.2 ⟨word4_fields h (by rw [hn]; rfl), rfl, nofun⟩
    · exact encodesBack_error
  case h_2 h | h_3 h | h_11 h | h_12 h => exact encodesBack_ok.2 ⟨word13_fields h, rfl, nofun⟩
  case h_4 h | h_5 h | h_7 h | h_8 h | h_13 h => exact encodesBack_ok.2 ⟨word211_fields h rfl, rfl, nofun⟩
  case h_14 h => exact encodesBack_ok.2 ⟨word4_fields h rfl, rfl, nofun⟩
  case h_15 h => exact encodesBack_decodeClassE g h
  case h_16 => exact encodesBack_decodeClassF g (by have := (fieldClass w).isLt; grind)

/-- Settles O2: in every branch the decoder's tests and the fields it passes on put the word together again. -/
theorem encodeOfDecodedIsIdentity : Obligations.EncodeOfDecodedIsIdentity := encodesBack_decodeWord

end Sys2Proof

/-! The invalid words (spec/30_encoding.md R99): when each decoder rejects, class by class. -/

namespace Sys2Proof

/-! ## Tests on fields as tests on the word's number -/

theorem fieldKk_eq_iff {w : Word} {k : Nat} (hk : k < 256) : fieldKk w = BitVec.ofNat 8 k ↔ w.toNat % 0x100 = k := by
  rw [← BitVec.toNat_inj, fieldKk_toNat, BitVec.toNat_ofNat, Nat.mod_eq_of_lt hk]

theorem fieldY_eq_iff {w : Word} {y : Nib} : fieldY w = y ↔ w.toNat / 0x10 % 0x10 = y.val := by
  rw [Fin.ext_iff, fieldY_val]

theorem fieldV3_eq_iff {w : Word} {n : Nib} : fieldV3 w = n ↔ w.toNat % 0x10 = n.val := by
  rw [Fin.ext_iff, fieldV3_val]

/-! ## Rejections -/

theorem exists_error_ite {c : Prop} [Decidable c] (r r' : Except Reject Instr) :
    (∃ e, (if c then r else r') = .error e) ↔ if c then ∃ e, r = .error e else ∃ e, r' = .error e := by
  split <;> rfl

theorem exists_error_superOnly (g : Bool) (i : Instr) : (∃ e, superOnly g i = .error e) ↔ g = false := by
  cases g <;> simp [superOnly]

theorem decodeClass0_rejects (g : Bool) (w : Word) : (∃ e, decodeClass0 g w = .error e) ↔
    g = false ∧ (w.toNat / 0x10 % 0x10 = 0xC ∨ w.toNat % 0x100 ∈ [0xFB, 0xFC, 0xFD, 0xFE, 0xFF]) := by
  have h0 : w = 0 ↔ w.toNat = 0 := BitVec.toNat_inj.symm
  simp only [decodeClass0, h0]
  cases g
  case true => simp [exists_error_ite, exists_error_superOnly]
  case false =>
    simp [exists_error_ite, exists_error_superOnly, fieldKk_eq_iff, fieldY_eq_iff]
    omega

theorem decodeClass8_rejects (w : Word) : (∃ e, decodeClass8 w = .error e) ↔
    8 ≤ w.toNat % 0x10 ∧ w.toNat % 0x10 ≠ 0xE := by
  rw [← fieldV3_val]
  unfold decodeClass8
  split
  case h_10 =>
    simp only [Except.error.injEq, exists_eq', true_iff]
    grind
  all_goals simp [*]

theorem decodeClassE_rejects (w : Word) : (∃ e, decodeClassE w = .error e) ↔ w.toNat % 0x100 ∉ [0x9E, 0xA1] := by
  simp [decodeClassE, exists_error_ite, fieldKk_eq_iff]

theorem decodeClassF_rejects (g : Bool) (w : Word) : (∃ e, decodeClassF g w = .error e) ↔
    w.toNat % 0x100 ∉ [0x07, 0x0A, 0x15, 0x18, 0x1E, 0x29, 0x33, 0x55, 0x65, 0x75, 0x85] ∨
      g = false ∧ w.toNat % 0x100 ∈ [0x75, 0x85] := by
  cases g
  case true => simp [decodeClassF, exists_error_ite, exists_error_superOnly, fieldKk_eq_iff]
  case false =>
    simp [decodeClassF, exists_error_ite, exists_error_superOnly, fieldKk_eq_iff]
    omega

/-- Settles O3: by the class of the word, and in each class by the decoder of the class. -/
theorem invalidWordsAreExactlyTheListed : Obligations.InvalidWordsAreExactlyTheListed := by
  intro g w
  rw [← fieldClass_val]
  unfold decodeWord
  split
  case h_1 h => simp [h, decodeClass0_rejects]
  case h_9 h => simp [h, decodeClass8_rejects]
  case h_15 h => simp [h, decodeClassE_rejects]
  case h_16 =>
    have h : (fieldClass w).val = 0xF := by have := (fieldClass w).isLt; grind
    simp [h, decodeClassF_rejects]
  case h_6 h | h_10 h => simp [h, exists_error_ite, fieldV3_eq_iff]
  all_goals simp [*]

/-- Settles O5: the eight words are closed terms. -/
theorem sourceWordsDecode : Obligations.SourceWordsDecode := by
  unfold Obligations.SourceWordsDecode
  decide

end Sys2Proof

/-! The opcode table against the decoder (spec/30_encoding.md R94): the table's order makes its selection a first match,
and the first match tests the fields that the decode procedure tests, in the same order. -/

namespace Sys2Proof.Machine

/-! ## Masks as fields -/

/-- A mask that keeps one nibble. -/
theorem and_nibble (n k : Nat) : n &&& 0xF <<< k = n / 2 ^ k % 0x10 * 2 ^ k := by
  rw [← Nat.shiftLeft_eq, ← Nat.shiftRight_eq_div_pow, ← Nat.and_two_pow_sub_one_eq_mod _ 4]
  apply Nat.eq_of_testBit_eq
  intro i
  by_cases h : k ≤ i <;> simp [h, Nat.testBit_shiftRight]

/-- Every mask of the table keeps the class; what it keeps of the other twelve bits decides the rest of the match. -/
theorem and_classMask_eq_iff (w : Word) (mask m : Nat) (hmask : mask < 0x1000) :
    w.toNat &&& (0xF000 ||| mask) = m ↔ w.toNat / 0x1000 = m / 0x1000 ∧ w.toNat &&& mask = m % 0x1000 := by
  have hlow : w.toNat &&& mask < 2 ^ 12 := Nat.and_lt_two_pow _ hmask
  have hclass : w.toNat &&& 0xF000 = (w.toNat / 0x1000) <<< 12 := by
    have := w.isLt
    rw [Nat.shiftLeft_eq]
    exact (and_nibble w.toNat 12).trans (by omega)
  rw [Nat.and_or_distrib_left, hclass, ← Nat.shiftLeft_add_eq_or_of_lt hlow, Nat.shiftLeft_eq]
  omega

@[simp] theorem and_F000_eq_iff (w : Word) (m : Nat) :
    w.toNat &&& 0xF000 = m ↔ w.toNat / 0x1000 = m / 0x1000 ∧ m % 0x1000 = 0 := by
  have h := and_classMask_eq_iff w 0x000 m (by decide)
  rwa [Nat.and_zero, eq_comm (a := 0)] at h

@[simp] theorem and_F00F_eq_iff (w : Word) (m : Nat) :
    w.toNat &&& 0xF00F = m ↔ w.toNat / 0x1000 = m / 0x1000 ∧ w.toNat % 0x10 = m % 0x1000 := by
  have h := and_classMask_eq_iff w 0x00F m (by decide)
  rwa [Nat.and_two_pow_sub_one_eq_mod _ 4] at h

@[simp] theorem and_F0FF_eq_iff (w : Word) (m : Nat) :
    w.toNat &&& 0xF0FF = m ↔ w.toNat / 0x1000 = m / 0x1000 ∧ w.toNat % 0x100 = m % 0x1000 := by
  have h := and_classMask_eq_iff w 0x0FF m (by decide)
  rwa [Nat.and_two_pow_sub_one_eq_mod _ 8] at h

@[simp] theorem and_F0F0_eq_iff (w : Word) (m : Nat) :
    w.toNat &&& 0xF0F0 = m ↔ w.toNat / 0x1000 = m / 0x1000 ∧
      w.toNat / 0x10 % 0x10 = m % 0x1000 / 0x10 ∧ m % 0x10 = 0 := by
  have h := and_classMask_eq_iff w 0x0F0 m (by decide)
  have hy : w.toNat &&& 0x0F0 = w.toNat / 0x10 % 0x10 * 0x10 := and_nibble _ 4
  rw [hy] at h
  exact h.trans (by omega)

@[simp] theorem and_FFFF_eq_iff (w : Word) (m : Nat) :
    w.toNat &&& 0xFFFF = m ↔ w.toNat / 0x1000 = m / 0x1000 ∧ w.toNat % 0x1000 = m % 0x1000 := by
  have h := and_classMask_eq_iff w 0xFFF m (by decide)
  rwa [Nat.and_two_pow_sub_one_eq_mod _ 12] at h

/-! ## The selection is the first match -/

theorem selectRow_eq_find? (w : Nat) {rows : List OpcodeRow}
    (h : rows.Pairwise fun r q => r.matched &&& q.mask = q.matched &&& r.mask → oneBits q.mask ≤ oneBits r.mask) :
    selectRow w rows = rows.find? fun r => w &&& r.mask = r.matched := by
  induction rows with
  | nil => rfl
  | cons r rs ih =>
    obtain ⟨hr, hrs⟩ := List.pairwise_cons.1 h
    rw [selectRow, ih hrs, List.find?_cons]
    by_cases hm : w &&& r.mask = r.matched
    · simp only [hm, decide_true, if_true]
      cases hq : rs.find? fun r => w &&& r.mask = r.matched with
      | none => rfl
      | some q =>
        have hqm : w &&& q.mask = q.matched := by simpa using List.find?_some hq
        exact if_pos (hr q (List.mem_of_find?_eq_some hq) (by rw [← hm, ← hqm, Nat.and_right_comm]))
    · simp only [hm, decide_false, if_false]

theorem opcodeTable_specific_first : opcodeTable.Pairwise fun r q =>
    r.matched &&& q.mask = q.matched &&& r.mask → oneBits q.mask ≤ oneBits r.mask := by
  decide +kernel

/-! ## What a row and a decoded instruction share -/

/-- The mnemonic and the gate mark of the row selected, if any. -/
def rowTag (o : Option OpcodeRow) : Option (String × Bool) := o.map fun r => (r.mnemonic, r.isSuper)

/-- The mnemonic and the gate mark of the instruction decoded, if any. -/
def decodeTag (r : Except Reject Instr) : Option (String × Bool) := r.toOption.map fun i => (tableMnemonic i, isSuper i)

@[simp] theorem rowTag_none : rowTag none = none := rfl

@[simp] theorem rowTag_some (r : OpcodeRow) : rowTag (some r) = some (r.mnemonic, r.isSuper) := rfl

@[simp] theorem decodeTag_ok (i : Instr) : decodeTag (.ok i) = some (tableMnemonic i, isSuper i) := rfl

@[simp] theorem decodeTag_error (e : Reject) : decodeTag (.error e) = none := rfl

@[simp] theorem decodeTag_superOnly (i : Instr) : decodeTag (superOnly true i) = some (tableMnemonic i, isSuper i) := rfl

theorem decodeTag_ite (c : Prop) [Decidable c] (r r' : Except Reject Instr) :
    decodeTag (if c then r else r') = if c then decodeTag r else decodeTag r' := apply_ite ..

/-- The tag of the first row that matches. -/
def matchTag (w : Word) (rows : List OpcodeRow) : Option (String × Bool) :=
  rowTag (rows.find? fun r => w.toNat &&& r.mask = r.matched)

@[simp] theorem matchTag_nil (w : Word) : matchTag w [] = none := rfl

@[simp] theorem matchTag_cons (w : Word) (r : OpcodeRow) (rows : List OpcodeRow) :
    matchTag w (r :: rows) = if w.toNat &&& r.mask = r.matched then some (r.mnemonic, r.isSuper) else matchTag w rows := by
  rw [matchTag, List.find?_cons]
  by_cases h : w.toNat &&& r.mask = r.matched <;> simp [h, matchTag]

/-! ## The first match and the decode procedure, class by class -/

theorem matchTag_class0 {w : Word} (h : w.toNat / 0x1000 = 0) :
    matchTag w opcodeTable = decodeTag (decodeClass0 true w) := by
  have h0 : w = 0 ↔ w.toNat % 0x1000 = 0 := by
    rw [← BitVec.toNat_inj]
    change _ = 0 ↔ _
    omega
  simp only [decodeClass0, h0, decodeTag_ite]
  simp [opcodeTable, classRows0, classRows1, classRows8, classRows9, classRowsF, h, fieldKk_eq_iff, fieldY_eq_iff,
    tableMnemonic, isSuper]

theorem matchTag_class8 {w : Word} (h : w.toNat / 0x1000 = 8) :
    matchTag w opcodeTable = decodeTag (decodeClass8 w) := by
  unfold decodeClass8
  rw [fieldV3_val]
  split <;> simp_all [opcodeTable, classRows0, classRows1, classRows8, classRows9, classRowsF, tableMnemonic, isSuper]

theorem matchTag_classE {w : Word} (h : w.toNat / 0x1000 = 0xE) :
    matchTag w opcodeTable = decodeTag (decodeClassE w) := by
  simp [opcodeTable, classRows0, classRows1, classRows8, classRows9, classRowsF, h, decodeClassE, decodeTag_ite,
    fieldKk_eq_iff, tableMnemonic, isSuper]

theorem matchTag_classF {w : Word} (h : w.toNat / 0x1000 = 0xF) :
    matchTag w opcodeTable = decodeTag (decodeClassF true w) := by
  simp [opcodeTable, classRows0, classRows1, classRows8, classRows9, classRowsF, h, decodeClassF, decodeTag_ite,
    fieldKk_eq_iff, tableMnemonic, isSuper]

theorem matchTag_opcodeTable (w : Word) : matchTag w opcodeTable = decodeTag (decodeWord true w) := by
  unfold decodeWord
  rw [fieldClass_val]
  split
  case h_1 h => exact matchTag_class0 h
  case h_9 h => exact matchTag_class8 h
  case h_15 h => exact matchTag_classE h
  case h_16 => exact matchTag_classF (by have := w.isLt; grind)
  all_goals simp [*, opcodeTable, classRows0, classRows1, classRows8, classRows9, classRowsF, decodeTag_ite,
    fieldV3_eq_iff, tableMnemonic, isSuper]

theorem rowTag_selectRow (w : Word) : rowTag (selectRow w.toNat opcodeTable) = decodeTag (decodeWord true w) := by
  rw [selectRow_eq_find? _ opcodeTable_specific_first]
  exact matchTag_opcodeTable w

/-- Settles O4: the table selects by its order, the decoder tests in that order. -/
theorem decodeAgreesWithOpcodeTable : Obligations.DecodeAgreesWithOpcodeTable := by
  intro g w
  have htag := rowTag_selectRow w
  cases hd : decodeWord true w with
  | ok i =>
    obtain ⟨rfl, hi, -⟩ := encodesBack_decodeWord true w i hd
    obtain ⟨r, hr, hmn, hsup⟩ : ∃ r, selectRow (encode i).toNat opcodeTable = some r ∧ r.mnemonic = tableMnemonic i ∧
        r.isSuper = isSuper i := by
      simpa [hd, rowTag] using htag
    simp only [hr]
    refine ⟨⟨i, rfl, hmn.symm, hsup.symm⟩, ?_⟩
    rw [hsup]
    exact decodeWord_encode hi g
  | error e =>
    have hr : selectRow w.toNat opcodeTable = none := by simpa [hd, rowTag] using htag
    simp only [hr]
    cases hg : decodeWord g w with
    | ok i =>
      obtain ⟨rfl, hi, -⟩ := encodesBack_decodeWord g w i hg
      exact absurd (hd.symm.trans (decodeWord_encode hi true)) (by simp)
    | error e' => exact ⟨e', rfl⟩

end Sys2Proof.Machine

/-! No answer is a refusal (spec/40_step_cycle.md R125): first the shared operations, then every instruction. -/

namespace Sys2Proof.Machine

/-- The answer is a next state or a fault. -/
def Answered (o : Out) : Prop := ∀ r, o ≠ .refused r

theorem answered_next (s : State) : Answered (.next s) := nofun

theorem answered_fault (f : Fault) : Answered (.fault f) := nofun

theorem answered_raise (e : FaultCode) (s : State) : Answered (raise e s) := by
  cases e <;> exact answered_fault _

theorem answered_writePc (t : Nat) (s : State) : Answered (writePc t s) := by
  obtain ⟨-, e⟩ | ⟨-, e⟩ := writePc_cases t s <;> rw [e]
  · exact answered_next _
  · exact answered_fault _

theorem answered_skipIf (c : Bool) (s : State) : Answered (skipIf c s) := by
  cases c
  · exact answered_next s
  · exact answered_writePc _ s

theorem answered_whenSuper (s : State) {o : Out} (ho : Answered o) : Answered (whenSuper s o) := by
  unfold whenSuper
  split
  · exact ho
  · exact answered_raise _ s

theorem answered_memWrites (a : Nat) (bs : List Byte) (s : State) : Answered (memWrites a bs s) := by
  unfold memWrites
  split
  · exact answered_next _
  · exact answered_raise _ s

theorem answered_execRet (s : State) : Answered (execRet s) := by
  obtain ⟨-, e⟩ | ⟨-, -, e⟩ | ⟨-, -, e⟩ := execRet_cases s <;> rw [e]
  · exact answered_fault _
  · exact answered_next _
  · exact answered_fault _

theorem answered_execCall (nnn : Addr) (s : State) : Answered (execCall nnn s) := by
  obtain ⟨-, e⟩ | ⟨-, -, e⟩ | ⟨-, -, e⟩ := execCall_cases nnn s <;> rw [e]
  · exact answered_fault _
  · exact answered_fault _
  · exact answered_next _

theorem answered_execSkp (x : Nib) (s : State) : Answered (execSkp x s) := by
  unfold execSkp
  split
  · exact answered_raise _ s
  · exact answered_skipIf _ s

theorem answered_execSknp (x : Nib) (s : State) : Answered (execSknp x s) := by
  unfold execSknp
  split
  · exact answered_raise _ s
  · exact answered_skipIf _ s

theorem answered_execDrw (x y n : Nib) (s : State) : Answered (execDrw x y n s) := by
  unfold execDrw
  split
  · exact answered_raise _ s
  · exact answered_next _

theorem answered_execLdXMem (x : Nib) (s : State) : Answered (execLdXMem x s) := by
  unfold execLdXMem
  split
  · exact answered_raise _ s
  · exact answered_next _

theorem answered_exec (i : Instr) (s : State) : Answered (exec i s) := by
  cases i with
  | sys | jp | jpV0 => exact answered_writePc _ s
  | seKk | sneKk | seXy | sneXy => exact answered_skipIf _ s
  | scd | scr | scl | exit | low | high | ldRX | ldXR => exact answered_whenSuper s (answered_next _)
  | ldBX | ldMemX => exact answered_memWrites _ _ s
  | ret => exact answered_execRet s
  | call nnn => exact answered_execCall nnn s
  | skp x => exact answered_execSkp x s
  | sknp x => exact answered_execSknp x s
  | drw x y n => exact answered_execDrw x y n s
  | ldXMem x => exact answered_execLdXMem x s
  | _ => exact answered_next _

/-- Settles O12: a key-wait check completes, a failed fetch faults, and every instruction answers. -/
theorem noStepIsRefused : Obligations.NoStepIsRefused := by
  intro s
  change Answered (step s)
  obtain ⟨-, e⟩ | ⟨-, f, -, e⟩ | ⟨-, i, -, -, e⟩ := step_cases s <;> rw [e]
  · exact answered_next _
  · exact answered_fault f
  · exact answered_exec i _

end Sys2Proof.Machine

/-! The disassembler beside the fetch (spec/30_encoding.md R102): both decode the word at `pc` under the same gate. -/

namespace Sys2Proof.Machine

/-! ## What fetching and disassembling say of the word at `pc` -/

/-- The word at `pc`, which every legal `pc` lets a fetch read. -/
def State.wordAtPc (s : State) : Word := wordOfBytes (s.peek s.pc.toNat) (s.peek (s.pc.toNat + 1))

theorem fetchDecode_of_ok {s : State} {i : Instr} (hpc : legalPc s.pc.toNat = true)
    (h : decodeWord s.cfg.superEnabled s.wordAtPc = .ok i) :
    fetchDecode s = if legalPc (s.pc.toNat + 2) then .ok (i, s.advanced) else .error (.outOfRangeAccess s) := by
  obtain ⟨-, htop, -⟩ := (legalPc_iff _).1 hpc
  rw [fetchDecode, fetch_eq_some (by omega), ← State.wordAtPc]
  simp only [h]

theorem fetchDecode_of_error {s : State} {e : Reject} (hpc : legalPc s.pc.toNat = true)
    (h : decodeWord s.cfg.superEnabled s.wordAtPc = .error e) :
    fetchDecode s = .error (if legalPc (s.pc.toNat + 2) then .invalidOpcode s.advanced else .outOfRangeAccess s) := by
  obtain ⟨-, htop, -⟩ := (legalPc_iff _).1 hpc
  rw [fetchDecode, fetch_eq_some (by omega), ← State.wordAtPc, apply_ite Except.error]
  simp only [h]

theorem disassembleCurrent_of_ok {s : State} {i : Instr} (hpc : legalPc s.pc.toNat = true)
    (h : decodeWord s.cfg.superEnabled s.wordAtPc = .ok i) : disassembleCurrent s = mnemonicString i := by
  obtain ⟨-, htop, -⟩ := (legalPc_iff _).1 hpc
  rw [disassembleCurrent, disassemble, memRead_eq_some (by omega), memRead_eq_some (by omega)]
  rw [State.wordAtPc] at h
  simp only [h]

theorem disassembleCurrent_of_error {s : State} {e : Reject} (hpc : legalPc s.pc.toNat = true)
    (h : decodeWord s.cfg.superEnabled s.wordAtPc = .error e) : disassembleCurrent s = s.cfg.badOpcodeMarker := by
  obtain ⟨-, htop, -⟩ := (legalPc_iff _).1 hpc
  rw [disassembleCurrent, disassemble, memRead_eq_some (by omega), memRead_eq_some (by omega)]
  rw [State.wordAtPc] at h
  simp only [h]

/-! ## The default marker is no instruction's string -/

theorem ne_marker_of_space {l : String} (h : ' ' ∈ l.toList) : l ≠ "???" := by
  rintro rfl
  exact absurd h (by decide)

theorem space_mem_line1 (m a : String) : ' ' ∈ (line1 m a).toList := by simp [line1]

theorem space_mem_line2 (m a b : String) : ' ' ∈ (line2 m a b).toList := by simp [line2]

theorem mnemonicString_ne_marker (i : Instr) : mnemonicString i ≠ "???" := by
  cases i with
  | halt | cls | ret | scr | scl | exit | low | high => simp [mnemonicString]
  | scd | sys | jp | call | shr | shl | skp | sknp => exact ne_marker_of_space (space_mem_line1 ..)
  | drw x y n => exact ne_marker_of_space (by simp [mnemonicString])
  | _ => exact ne_marker_of_space (space_mem_line2 ..)

/-- Settles O58: a step's fetch and the disassembler hand the decoder the same word and the same gate. -/
theorem disassemblerAgreesWithDecode : Obligations.DisassemblerAgreesWithDecode := by
  intro s hpc
  cases hd : decodeWord s.cfg.superEnabled s.wordAtPc with
  | ok i =>
    rw [fetchDecode_of_ok hpc hd, disassembleCurrent_of_ok hpc hd]
    refine ⟨fun j s' h => ?_, fun s' h => ?_⟩ <;> split at h <;> cases h
    exact ⟨rfl, mnemonicString_ne_marker i⟩
  | error e =>
    rw [fetchDecode_of_error hpc hd, disassembleCurrent_of_error hpc hd]
    exact ⟨fun _ _ h => absurd h nofun, fun _ _ => rfl⟩

end Sys2Proof.Machine

/-! The step cycle (spec/40_step_cycle.md R120 to R126): the key-wait, the last slot, the decoded instruction, the result. -/

namespace Sys2Proof.Machine

/-! ## The last slot (R123, D8) -/

theorem step_top {s : State} (hw : s.waiting = false) (hpc : s.pc = 0xFFE) : step s = .fault (.outOfRangeAccess s) :=
  step_of_error hw (fetchDecode_top hpc)

theorem HostOp.apply_step_top {s : State} (hw : s.waiting = false) (hpc : s.pc = 0xFFE) (b : Byte) :
    (HostOp.step b).apply s = s := by
  rw [HostOp.apply, stepWith_of_error b hw (fetchDecode_top hpc)]
  rfl

/-- A state that every one of some operations leaves as it is, their sequence leaves as it is. -/
theorem applyAll_of_fixed {s : State} {ops : List HostOp} (h : ∀ op ∈ ops, op.apply s = s) : applyAll ops s = s :=
  List.foldlRecOn (motive := (· = s)) ops _ rfl fun _ ht op hop => ht ▸ h op hop

/-- Settles O7: the failed advance leaves the state as it was, which every further step finds again. -/
theorem lastSlotNeverExecutes : Obligations.LastSlotNeverExecutes := by
  intro s hw hpc
  refine ⟨step_top hw hpc, fun bytes => applyAll_of_fixed fun op hop => ?_⟩
  obtain ⟨b, -, rfl⟩ := List.mem_map.1 hop
  exact HostOp.apply_step_top hw hpc b

/-! ## The key-wait (R121) -/

theorem keyWaitCheck_of_not_latched {s : State} (h : s.latchValid = false) : keyWaitCheck s = s := by
  simp [keyWaitCheck, h]

theorem keyWaitCheck_of_latched {s : State} (h : s.latchValid = true) :
    keyWaitCheck s =
      { s.setV s.waitReg (BitVec.ofNat 8 s.latchKey.val) with waiting := false, latchValid := false } := by
  simp [keyWaitCheck, h]

/-- A key's index survives its move into a byte. -/
theorem toNat_ofNat_nib (k : Nib) : (BitVec.ofNat 8 k.val).toNat = k.val :=
  Nat.mod_eq_of_lt (by omega)

theorem getV_keyWaitCheck_of_latched {s : State} (h : s.latchValid = true) (r : Nib) :
    ((keyWaitCheck s).getV r).toNat = if r = s.waitReg then s.latchKey.val else (s.getV r).toNat := by
  have hV : (keyWaitCheck s).V = (s.setV s.waitReg (BitVec.ofNat 8 s.latchKey.val)).V := by
    rw [keyWaitCheck_of_latched h]
  rw [State.getV_eq hV, State.getV_setV, apply_ite BitVec.toNat, toNat_ofNat_nib]

theorem stepResult_of_waiting {s : State} (h : s.waiting = true) : stepResult s = .continue := by
  rw [stepResult, step_of_waiting h]
  exact if_pos h

/-- Settles O9: while waiting, a step is the key-wait check, with and without a latched press. -/
theorem waitingStepOnlyChecksTheLatch : Obligations.WaitingStepOnlyChecksTheLatch := by
  intro s hw
  refine ⟨stepResult_of_waiting hw, fun hl => ?_, fun hl => ?_⟩
  · rw [step_of_waiting hw, keyWaitCheck_of_not_latched hl]
  · refine ⟨keyWaitCheck s, step_of_waiting hw, ?_, getV_keyWaitCheck_of_latched hl⟩
    rw [keyWaitCheck_of_latched hl]
    rfl

/-! ## The result (R126) -/

theorem resultOf_eq_halt_iff (i : Instr) : resultOf i = .halt ↔ i = .halt ∨ ∃ ign, i = .exit ign := by
  cases i <;> simp [resultOf]

theorem resultOf_ne_fault (i : Instr) (c : FaultCode) : resultOf i ≠ .fault c := by
  cases i <;> simp [resultOf]

/-- Where an instruction runs and completes, the result is that instruction's own. -/
theorem stepResult_of_next {s s' t : State} {i : Instr} (hw : s.waiting = false) (hf : fetchDecode s = .ok (i, s'))
    (h : step s = .next t) : stepResult s = resultOf i := by
  simp [stepResult, completedResult, h, hw, hf]

theorem stepResult_of_fault {s : State} {f : Fault} (h : step s = .fault f) : stepResult s = .fault f.code := by
  rw [stepResult, h]

/-- Settles O10: the step completes, with the instruction's own result, or it faults; no step is refused. -/
theorem stepResultIsHaltOnlyForHaltAndExit : Obligations.StepResultIsHaltOnlyForHaltAndExit := by
  intro s i hw hf
  cases h : step s with
  | next t =>
    rw [stepResult_of_next hw hf h]
    refine ⟨?_, fun c => ⟨fun hc => absurd hc (resultOf_ne_fault i c), fun ⟨_, hc, _⟩ => nomatch hc⟩⟩
    rw [resultOf_eq_halt_iff]
    exact (and_iff_right ⟨t, rfl⟩).symm
  | fault f =>
    rw [stepResult_of_fault h]
    simp
  | refused r => exact absurd h (noStepIsRefused s r)

/-! ## The decoded instruction (R120, R122, R125) -/

theorem wordOfBytes_of_eq_bytesOfWord {b0 b1 : Byte} {w : Word} (h : [b0, b1] = bytesOfWord w) :
    wordOfBytes b0 b1 = w := by
  simp only [bytesOfWord, List.cons.injEq, and_true] at h
  obtain ⟨rfl, rfl⟩ := h
  exact wordOfBytes_bytesOfWord w

theorem decodeWord_encode_of_admitted {i : Instr} {g : Bool} (hi : wellFormed i = true)
    (hg : isSuper i = true → g = true) : decodeWord g (encode i) = .ok i := by
  rw [decodeWord_encode hi, if_neg]
  rintro ⟨hsuper, rfl⟩
  exact absurd (hg hsuper) Bool.false_ne_true

/-- Settles O6: the bytes at `pc` are the instruction's word, which decodes back to it, and below 0xFFE the advance is
legal. -/
theorem stepRunsTheDecodedInstruction : Obligations.StepRunsTheDecodedInstruction := by
  intro s i hw hpc htop hi hg hbytes
  have hword : s.wordAtPc = encode i := wordOfBytes_of_eq_bytesOfWord hbytes
  have hdec : decodeWord s.cfg.superEnabled s.wordAtPc = .ok i := hword ▸ decodeWord_encode_of_admitted hi hg
  have hadv : legalPc (s.pc.toNat + 2) = true := by
    rw [legalPc_iff] at hpc ⊢
    omega
  exact step_of_ok hw ((fetchDecode_of_ok hpc hdec).trans (if_pos hadv))

end Sys2Proof.Machine

/-! Class 0 and the jumps (spec/41_class0_system.md, spec/42_flow.md): the return, the scrolls, the resolution. -/

namespace Sys2Proof.Machine

/-! ## The return (R143) -/

theorem execRet_of_empty {s : State} (h : s.SP = 0) : execRet s = .fault (.stackUnderflow s) := by
  rw [execRet, if_pos h]
  rfl

theorem execRet_of_legal {s : State} (h : s.SP ≠ 0) (hl : legalPc s.top.toNat = true) :
    execRet s = .next { s with pc := s.top, SP := s.SP - 1 } := by
  obtain ⟨h0, -⟩ | ⟨-, -, e⟩ | ⟨-, hb, -⟩ := execRet_cases s
  · exact absurd h0 h
  · exact e
  · exact absurd hb ((not_badTarget_iff _).2 hl)

/-- The top entry is a live one, so a return address. -/
theorem State.stackOk.legalPc_top {s : State} (hs : s.stackOk) (h : s.SP ≠ 0) : legalPc s.top.toNat = true :=
  (hs.2 (s.SP.toNat - 1) (by bv_omega)).1

/-- The word a push has put on the stack is its top entry, wherever `pc` stands. -/
theorem State.top_of_pushed (s : State) (v p : Word) (h : s.SP.toNat < 16) :
    ({ s with stack := s.stack.setIfInBounds s.SP.toNat v, SP := s.SP + 1, pc := p } : State).top = v := by
  have hdepth : (s.SP + 1).toNat - 1 = s.SP.toNat := by bv_omega
  rw [State.top, hdepth, getD_setIfInBounds, if_pos ⟨rfl, h⟩]

/-- Settles O31: the call pushed a legal address, which the return finds on top, whatever `pc` was in between. -/
theorem returnUndoesCall : Obligations.ReturnUndoesCall := by
  intro s t nnn ign p hpc hcall
  obtain ⟨rfl, -, hSP⟩ := exec_next_shape hcall
  have htop := s.top_of_pushed s.pc p hSP
  have hne : s.SP + 1 ≠ 0 := by bv_omega
  refine ⟨_, execRet_of_legal hne (htop.symm ▸ hpc), ?_⟩
  simp only [htop, BitVec.add_sub_cancel]

/-- Settles O24: an empty stack faults; otherwise the top entry is a return address, so the `pc` write is legal. -/
theorem returnPopsTheStack : Obligations.ReturnPopsTheStack := by
  intro s ign hs
  refine ⟨execRet_of_empty, fun h => ⟨_, execRet_of_legal h (hs.legalPc_top h), rfl, rfl, ?_⟩⟩
  show (s.SP - 1).toNat = _
  bv_omega

/-! ## The resolution and the halts (R140, R141, R147 to R149) -/

/-- Settles O22: with the gate on each meaning is its one update, with it off the fault. -/
theorem haltExitLowHighEffects : Obligations.HaltExitLowHighEffects := by
  intro s ign
  refine ⟨rfl, fun hon => ⟨whenSuper_on _ hon, ?_, ?_⟩, fun hoff i hi => ?_⟩
  · exact ⟨{ s with highRes := false }, whenSuper_on _ hon, rfl, rfl, rfl, fun _ => rfl⟩
  · exact ⟨{ s with highRes := true }, whenSuper_on _ hon, rfl, rfl, rfl, fun _ => rfl⟩
  · simp only [List.mem_cons, List.not_mem_nil, or_false] at hi
    obtain rfl | rfl | rfl := hi <;> exact whenSuper_off _ hoff

/-! ## The scrolls (R144 to R146, R212 to R214) -/

/-- An operation on the active framebuffer changes no other part of the state. -/
theorem State.onActive_eq (s : State) (f : {w h : Nat} → Frame w h → Frame w h) :
    s.onActive f =
      if s.highRes then { s with fbHi := (s.onActive f).fbHi } else { s with fbLo := (s.onActive f).fbLo } := by
  unfold State.onActive
  split <;> rfl

/-- Where an operation takes the pixel at row `r` and column `c` of every framebuffer, it takes that of the active one:
to the flat index `dst w h r c`, which may depend on the width and the height. -/
theorem State.pixel_onActive_of_frame (s : State) {f : {w h : Nat} → Frame w h → Frame w h}
    (dst : Nat → Nat → Nat → Nat → Nat)
    (hf : ∀ {w h : Nat} (fb : Frame w h) {r c : Nat}, r < h → c < w →
      pixelOf (f fb) (dst w h r c) = pixelOf fb (r * w + c))
    {r c : Nat} (hr : r < s.height) (hc : c < s.width) :
    (s.onActive f).pixel (dst s.width s.height r c) = s.pixel (r * s.width + c) := by
  unfold State.pixel State.onActive State.width State.height at *
  cases h : s.highRes with
  | true =>
    simp only [h, if_true] at hr hc ⊢
    exact hf s.fbHi hr hc
  | false =>
    simp only [h, Bool.false_eq_true, if_false] at hr hc ⊢
    exact hf s.fbLo hr hc

theorem State.pixel_onActive_scrollDown (s : State) (n : Nat) {r c : Nat} (hr : r < s.height) (hc : c < s.width) :
    (s.onActive (scrollDown n)).pixel ((r + n) % s.height * s.width + c) = s.pixel (r * s.width + c) :=
  s.pixel_onActive_of_frame (fun w h r c => (r + n) % h * w + c) (pixelOf_scrollDown n) hr hc

theorem State.pixel_onActive_scrollRight (s : State) (k : Nat) {r c : Nat} (hr : r < s.height) (hc : c < s.width) :
    (s.onActive (scrollRight k)).pixel (r * s.width + (c + k) % s.width) = s.pixel (r * s.width + c) :=
  s.pixel_onActive_of_frame (fun w _ r c => r * w + (c + k) % w) (pixelOf_scrollRight k) hr hc

theorem State.pixel_onActive_scrollLeft (s : State) (k : Nat) {r c : Nat} (hr : r < s.height) (hc : c < s.width) :
    (s.onActive (scrollLeft k)).pixel (r * s.width + (c + s.width - k % s.width) % s.width) =
      s.pixel (r * s.width + c) :=
  s.pixel_onActive_of_frame (fun w _ r c => r * w + (c + w - k % w) % w) (pixelOf_scrollLeft k) hr hc

/-- Settles O25: `ScrollDown` on the active framebuffer. -/
theorem scrollDownMovesRows : Obligations.ScrollDownMovesRows := by
  intro s ign n hon
  exact ⟨_, whenSuper_on _ hon, s.onActive_eq _, fun _ _ hr hc => s.pixel_onActive_scrollDown n.val hr hc⟩

/-- Settles O26: `ScrollRight` and `ScrollLeft` on the active framebuffer, by the amount of its resolution. -/
theorem scrollRightAndLeftRotateRows : Obligations.ScrollRightAndLeftRotateRows := by
  intro s ign k hon hk
  obtain rfl : k = scrollAmount s := hk
  exact ⟨⟨_, whenSuper_on _ hon, s.onActive_eq _, fun _ _ hr hc => s.pixel_onActive_scrollRight _ hr hc⟩,
    ⟨_, whenSuper_on _ hon, s.onActive_eq _, fun _ _ hr hc => s.pixel_onActive_scrollLeft _ hr hc⟩⟩

/-! ## The jumps (R150, R160, R161) -/

/-- Settles O29: each of the three is the checked `pc` write of its target. -/
theorem jumpsWriteOnlyThePc : Obligations.JumpsWriteOnlyThePc := by
  intro s nnn
  exact ⟨jumpsTo_writePc nnn.toNat s, jumpsTo_writePc nnn.toNat s, jumpsTo_writePc (offsetTarget nnn s) s⟩

end Sys2Proof.Machine

/-! The call (spec/42_flow.md). -/

namespace Sys2Proof.Machine

/-- A push changes the entry at the old depth alone. -/
theorem State.stack_getD_of_pushed (s : State) (v : Word) {j : Nat} (hj : j < 16) :
    (s.stack.setIfInBounds s.SP.toNat v).getD j 0 = if j = s.SP.toNat then v else s.stack.getD j 0 := by
  simp only [getD_setIfInBounds, hj, and_true, eq_comm (a := j)]

/-- Settles O30: the three answers of `CALL`, in the order of its checks; each clause selects one and excludes the
other two. -/
theorem callPushesTheReturnAddress : Obligations.CallPushesTheReturnAddress := by
  intro s nnn
  obtain ⟨hSP, e⟩ | ⟨hSP, hb, e⟩ | ⟨hSP, hl, e⟩ := execCall_cases nnn s
  · exact ⟨fun _ => e, fun h => absurd hSP (by omega), fun h => absurd hSP (by omega)⟩
  · exact ⟨fun h => absurd hSP (by omega), fun _ _ => e, fun _ h => absurd hb h⟩
  · refine ⟨fun h => absurd hSP (by omega), fun _ hb => absurd hb ((not_badTarget_iff _).2 hl),
      fun _ _ => ⟨_, e, rfl, ?_, ?_, fun _ hj => s.stack_getD_of_pushed s.pc hj⟩⟩
    · show (BitVec.ofNat 16 nnn.toNat).toNat = _
      bv_omega
    · show (s.SP + 1).toNat = _
      bv_omega

end Sys2Proof.Machine

/-! The skips (spec/43_skip.md). -/

namespace Sys2Proof.Machine

/-- Settles O32: the word is the instruction's encoding, and the meaning is the conditional skip on its comparison. -/
theorem skipIfEqualImmediate : Obligations.SkipIfEqualImmediate := by
  intro s x kk g
  have hdec : decodeWord g (encode (.seKk x kk)) = .ok (.seKk x kk) := decodeWord_encode_of_admitted rfl nofun
  exact ⟨hdec, skipsWhen_skipIf (s.getV x = kk) s⟩

/-- Settles O33: each meaning is the conditional skip on its comparison. -/
theorem registerSkips : Obligations.RegisterSkips := by
  intro s x y kk
  exact ⟨skipsWhen_skipIf (s.getV x ≠ kk) s, skipsWhen_skipIf (s.getV x = s.getV y) s,
    skipsWhen_skipIf (s.getV x ≠ s.getV y) s⟩

end Sys2Proof.Machine

/-! The loads and the register ALU (spec/44_load_alu.md): what each result and each flag is as a number, then the
instructions, each of which writes its result and, where R22 gives it one, its flag. -/

namespace Sys2Proof.Machine

/-! ## Results -/

@[simp] theorem sumByte_toNat (a b : Byte) : (sumByte a b).toNat = (a.toNat + b.toNat) % 256 := by
  rw [sumByte, BitVec.toNat_ofNat, Nat.mod_mod]

@[simp] theorem differenceByte_toNat (a b : Byte) :
    (differenceByte a b).toNat = if a.toNat < b.toNat then a.toNat + 256 - b.toNat else a.toNat - b.toNat := by
  have := a.isLt
  have := b.isLt
  rw [differenceByte, BitVec.toNat_ofInt]
  split <;> omega

@[simp] theorem halfByte_toNat (a : Byte) : (halfByte a).toNat = a.toNat / 2 := by
  rw [halfByte, BitVec.toNat_ushiftRight, Nat.shiftRight_eq_div_pow, Nat.pow_one]

@[simp] theorem doubleByte_toNat (a : Byte) : (doubleByte a).toNat = a.toNat * 2 % 256 := by
  rw [doubleByte, BitVec.toNat_shiftLeft, Nat.shiftLeft_eq, Nat.pow_one]

/-! ## Flags -/

theorem lowBit_eq_decide (a : Byte) : lowBit a = decide (a.toNat % 2 = 1) := by
  rw [lowBit, BitVec.getLsbD, Nat.testBit_zero]

theorem highBit_eq_decide (a : Byte) : highBit a = decide (a.toNat ≥ 128) := by
  have hmsb : highBit a = a.msb := rfl
  rw [hmsb, BitVec.msb_eq_decide]

/-! ## Loads and immediate forms (R180 to R185) -/

/-- Settles O35: the word is the instruction's encoding, and the meaning is the one register write. -/
theorem loadImmediate : Obligations.LoadImmediate := by
  intro s x kk g
  have hdec : decodeWord g (encode (.ldKk x kk)) = .ok (.ldKk x kk) := decodeWord_encode_of_admitted rfl nofun
  exact ⟨hdec, writesRegister_setV s x kk⟩

/-- Settles O36: the word is the instruction's encoding, and the one register write is of `sumByte`. -/
theorem addImmediate : Obligations.AddImmediate := by
  intro s x kk g
  have hdec : decodeWord g (encode (.addKk x kk)) = .ok (.addKk x kk) := decodeWord_encode_of_admitted rfl nofun
  exact ⟨hdec, _, sumByte_toNat (s.getV x) kk, writesRegister_setV s x _⟩

/-- Settles O37: each meaning is one register write, of `V[y]` or of the bitwise operation on the two registers. -/
theorem moveAndBitwise : Obligations.MoveAndBitwise := by
  intro s x y
  exact ⟨writesRegister_setV s x _,
    ⟨_, fun _ _ => BitVec.getLsbD_or, writesRegister_setV s x _⟩,
    ⟨_, fun _ _ => BitVec.getLsbD_and, writesRegister_setV s x _⟩,
    ⟨_, fun _ _ => BitVec.getLsbD_xor, writesRegister_setV s x _⟩⟩

/-! ## Results with a flag (R186 to R190) -/

/-- Settles O38: the result is `sumByte`, and the flag `carryOut` of the operands as they were. -/
theorem addWithCarry : Obligations.AddWithCarry := by
  intro s x y
  exact ⟨_, sumByte_toNat (s.getV x) (s.getV y), writesResultAndFlag_setFlag s x _ (carryOut (s.getV x) (s.getV y))⟩

/-- Settles O39: the result is `differenceByte` and the flag `notBorrow`, of the operands in the instruction's order. -/
theorem subtractWithNotBorrow : Obligations.SubtractWithNotBorrow := by
  rintro s x y _ _ rfl rfl
  exact ⟨⟨_, differenceByte_toNat (s.getV x) (s.getV y),
      writesResultAndFlag_setFlag s x _ (notBorrow (s.getV x) (s.getV y))⟩,
    ⟨_, differenceByte_toNat (s.getV y) (s.getV x),
      writesResultAndFlag_setFlag s x _ (notBorrow (s.getV y) (s.getV x))⟩⟩

/-- Settles O40: each meaning reads `V[x]` alone, and its flag is the bit its shift drops. -/
theorem shiftsIgnoreTheSecondRegister : Obligations.ShiftsIgnoreTheSecondRegister := by
  rintro s x y _ rfl
  rw [← lowBit_eq_decide, ← highBit_eq_decide]
  exact ⟨⟨_, halfByte_toNat (s.getV x), writesResultAndFlag_setFlag s x _ _⟩,
    ⟨_, doubleByte_toNat (s.getV x), writesResultAndFlag_setFlag s x _ _⟩⟩

end Sys2Proof.Machine

/-! The index load and the random byte (spec/45_index_random.md). -/

namespace Sys2Proof.Machine

/-! ## The index load (R27, R200) -/

theorem State.setI_I_toNat (s : State) (v : Nat) : (s.setI v).I.toNat = v % 0x1000 := by
  rw [State.setI_I, BitVec.toNat_ofNat]
  omega

/-- Settles O41: the word is the instruction's encoding, and `SetI` does not cut a 12-bit address. -/
theorem loadIndex : Obligations.LoadIndex := by
  intro s nnn g
  have hdec : decodeWord g (encode (.ldI nnn)) = .ok (.ldI nnn) := decodeWord_encode_of_admitted rfl nofun
  have hI : (s.setI nnn.toNat).I.toNat = nnn.toNat := by rw [State.setI_I_toNat, Nat.mod_eq_of_lt nnn.isLt]
  exact ⟨hdec, s.setI nnn.toNat, rfl, rfl, hI⟩

/-! ## The random byte (R201) -/

theorem State.getV_randomInto (rnd : Byte) (x : Nib) (kk : Byte) (s : State) (r : Nib) :
    (randomInto rnd x kk s).getV r = if r = x then rnd &&& kk else s.getV r :=
  State.getV_setV s x r (rnd &&& kk)

/-- Settles O43: the one register write is of the masked draw, and a mask sets no bit outside itself, whatever the
draw is. -/
theorem randomIsMasked : Obligations.RandomIsMasked := by
  intro s x kk
  have hread := State.getV_randomInto (Config.freeRnd s.draws) x kk { s with draws := s.draws + 1 }
  refine ⟨_, rfl, rfl, hread, fun k hk => ?_⟩
  rw [hread, if_pos rfl, BitVec.getLsbD_and, hk, Bool.and_false]

end Sys2Proof.Machine

/-! The screen (spec/46_display_draw.md R211 to R214): the blank screen, and the scrolls as rearrangements of pixels. -/

namespace Sys2Proof.Machine

/-! ## Clearing (R211) -/

/-- Settles O23: both framebuffers become the blank one. -/
theorem clearScreenClearsBothFramebuffers : Obligations.ClearScreenClearsBothFramebuffers := by
  intro s ign
  exact ⟨clearScreen s, rfl, rfl, fun p _ => pixelOf_blankFrame p, fun p _ => pixelOf_blankFrame p⟩

/-! ## Flat indices as rows and columns (R37) -/

theorem rowcol_lt {w h r c : Nat} (hr : r < h) (hc : c < w) : r * w + c < w * h := by
  have := Nat.mul_le_mul_right w (Nat.succ_le_of_lt hr)
  have := Nat.succ_mul r w
  have := Nat.mul_comm w h
  omega

theorem rowcol_inj {w r c r' c' : Nat} (hc : c < w) (hc' : c' < w) (h : r * w + c = r' * w + c') :
    r = r' ∧ c = c' := by
  have hw : 0 < w := by omega
  have hdiv := congrArg (· / w) h
  have hmod := congrArg (· % w) h
  simp only [Nat.mul_add_mod', Nat.mod_eq_of_lt hc, Nat.mod_eq_of_lt hc'] at hmod
  simp only [Nat.add_comm (_ * w), Nat.add_mul_div_right _ _ hw, Nat.div_eq_of_lt hc, Nat.div_eq_of_lt hc',
    Nat.zero_add] at hdiv
  exact ⟨hdiv, hmod⟩

/-- Two framebuffers that agree in every row and column are the same. -/
theorem frame_ext_rowcol {w h : Nat} {fb fb' : Frame w h}
    (hp : ∀ r c, r < h → c < w → pixelOf fb (r * w + c) = pixelOf fb' (r * w + c)) : fb = fb' := by
  refine frame_ext fun p hlt => ?_
  have := hp (p / w) (p % w) (row_lt hlt) (Nat.mod_lt p (width_pos hlt))
  rwa [Nat.div_add_mod'] at this

/-! ## Operations on the active framebuffer that cancel -/

theorem State.onActive_eq_self (s : State) {f : {w h : Nat} → Frame w h → Frame w h}
    (hf : ∀ {w h : Nat} (fb : Frame w h), f fb = fb) : s.onActive f = s := by
  unfold State.onActive
  split <;> simp only [hf]

theorem State.onActive_onActive (s : State) (f g : {w h : Nat} → Frame w h → Frame w h) :
    (s.onActive f).onActive g = s.onActive fun fb => g (f fb) := by
  unfold State.onActive
  cases s.highRes <;> rfl

/-! ## The number of lit pixels (R212) -/

/-- Where `t` is `s` rearranged by an injective map of the indices below `N`, both are true equally often. -/
theorem card_filter_of_rearranged {N : Nat} {s t : Nat → Bool} (σ : Nat → Nat) (hlt : ∀ p < N, σ p < N)
    (hinj : ∀ p < N, ∀ q < N, σ p = σ q → p = q) (ht : ∀ p < N, t (σ p) = s p) :
    ((Finset.range N).filter fun p => t p = true).card = ((Finset.range N).filter fun p => s p = true).card := by
  have hinjOn : Set.InjOn σ (Finset.range N) := fun p hp q hq =>
    hinj p (Finset.mem_range.1 hp) q (Finset.mem_range.1 hq)
  have hsurj : Set.SurjOn σ (Finset.range N) (Finset.range N) :=
    Finset.surjOn_of_injOn_of_card_le σ (by simpa [Set.MapsTo] using hlt) hinjOn le_rfl
  refine (Finset.card_nbij σ ?_ (hinjOn.mono (Finset.coe_subset.2 (Finset.filter_subset _ _))) ?_).symm
  · intro p hp
    obtain ⟨hpN, hs⟩ := Finset.mem_filter.1 hp
    have hp := Finset.mem_range.1 hpN
    exact Finset.mem_filter.2 ⟨Finset.mem_range.2 (hlt p hp), (ht p hp).trans hs⟩
  · intro q hq
    obtain ⟨hqN, htq⟩ := Finset.mem_filter.1 hq
    obtain ⟨p, hpN, rfl⟩ := hsurj hqN
    exact ⟨p, Finset.mem_filter.2 ⟨hpN, (ht p (Finset.mem_range.1 hpN)).symm.trans htq⟩, rfl⟩

/-- The index `ScrollDown(n)` moves the pixel at index `p` to. -/
def scrolledDown (w h n p : Nat) : Nat := (p / w + n) % h * w + p % w

theorem scrolledDown_lt {w h n p : Nat} (hp : p < w * h) : scrolledDown w h n p < w * h :=
  rowcol_lt (Nat.mod_lt _ (Nat.zero_lt_of_lt (row_lt hp))) (Nat.mod_lt p (width_pos hp))

theorem scrolledDown_inj {w h n p q : Nat} (hp : p < w * h) (hq : q < w * h)
    (h' : scrolledDown w h n p = scrolledDown w h n q) : p = q := by
  have hw := width_pos hp
  obtain ⟨hrow, hcol⟩ := rowcol_inj (Nat.mod_lt p hw) (Nat.mod_lt q hw) h'
  rw [Nat.add_comm _ n, Nat.add_comm _ n] at hrow
  rw [← Nat.div_add_mod' p w, ← Nat.div_add_mod' q w, add_mod_inj (row_lt hp) (row_lt hq) hrow, hcol]

theorem State.pixel_onActive_scrolledDown (s : State) (n : Nat) {p : Nat} (hp : p < s.width * s.height) :
    (s.onActive (scrollDown n)).pixel (scrolledDown s.width s.height n p) = s.pixel p := by
  have := s.pixel_onActive_scrollDown n (row_lt hp) (Nat.mod_lt p (width_pos hp))
  rwa [Nat.div_add_mod'] at this

/-- Settles O27: `ScrollDown` rearranges the pixels of the active framebuffer injectively. -/
theorem scrollDownIsToroidal : Obligations.ScrollDownIsToroidal := by
  rintro s _ n rfl
  refine ⟨s.onActive_eq _, fun _ _ hr hc => s.pixel_onActive_scrollDown n hr hc, ?_, ?_⟩
  · rintro rfl
    exact s.onActive_eq_self scrollDown_zero
  · exact card_filter_of_rearranged (scrolledDown s.width s.height n) (fun _ hp => scrolledDown_lt hp)
      (fun _ hp _ hq => scrolledDown_inj hp hq) fun _ hp => s.pixel_onActive_scrolledDown n hp

/-! ## The sideways scrolls (R213, R214) -/

theorem column_right_left {w c : Nat} (k : Nat) (hc : c < w) : ((c + k) % w + w - k % w) % w = c := by
  have hk := Nat.mod_lt k (Nat.zero_lt_of_lt hc)
  rw [Nat.add_mod, Nat.mod_eq_of_lt hc]
  obtain hlt | hge := Nat.lt_or_ge (c + k % w) w
  · rw [Nat.mod_eq_of_lt hlt, show c + k % w + w - k % w = c + w by omega, Nat.add_mod_right, Nat.mod_eq_of_lt hc]
  · rw [Nat.mod_eq_sub_mod hge, Nat.mod_eq_of_lt (show c + k % w - w < w by omega),
      show c + k % w - w + w - k % w = c by omega, Nat.mod_eq_of_lt hc]

theorem column_left_right {w c : Nat} (k : Nat) (hc : c < w) : ((c + w - k % w) % w + k) % w = c := by
  have hk := Nat.mod_lt k (Nat.zero_lt_of_lt hc)
  rw [Nat.mod_add_mod, ← Nat.add_mod_mod, show c + w - k % w + k % w = c + w by omega, Nat.add_mod_right,
    Nat.mod_eq_of_lt hc]

theorem scrollLeft_scrollRight {w h : Nat} (k : Nat) (fb : Frame w h) : scrollLeft k (scrollRight k fb) = fb := by
  refine frame_ext_rowcol fun r c hr hc => ?_
  have hleft := pixelOf_scrollLeft k (scrollRight k fb) hr (Nat.mod_lt (c + k) (Nat.zero_lt_of_lt hc))
  rwa [column_right_left k hc, pixelOf_scrollRight k fb hr hc] at hleft

theorem scrollRight_scrollLeft {w h : Nat} (k : Nat) (fb : Frame w h) : scrollRight k (scrollLeft k fb) = fb := by
  refine frame_ext_rowcol fun r c hr hc => ?_
  have hright := pixelOf_scrollRight k (scrollLeft k fb) hr (Nat.mod_lt (c + w - k % w) (Nat.zero_lt_of_lt hc))
  rwa [column_left_right k hc, pixelOf_scrollLeft k fb hr hc] at hright

/-- Settles O28: the two rotations of a row are inverse to each other. -/
theorem scrollLeftUndoesScrollRight : Obligations.ScrollLeftUndoesScrollRight := by
  rintro s _ _ k rfl rfl
  refine ⟨s.onActive_eq _, s.onActive_eq _,
    fun _ _ hr hc => ⟨s.pixel_onActive_scrollRight k hr hc, s.pixel_onActive_scrollLeft k hr hc⟩, ?_, ?_⟩
  · rw [State.onActive_onActive]
    exact s.onActive_eq_self (scrollLeft_scrollRight k)
  · rw [State.onActive_onActive]
    exact s.onActive_eq_self (scrollRight_scrollLeft k)

end Sys2Proof.Machine

/-! The sprite draw (spec/46_display_draw.md R210, R215 to R218). -/

namespace Sys2Proof.Machine

/-! ## The state a draw leaves -/

/-- The state `DRW` leaves when every sprite row is in memory. -/
def State.drawn (s : State) (x y n : Nib) : State :=
  (s.plot (drawTargets s x y n)).1.setFlag (s.plot (drawTargets s x y n)).2

theorem exec_drw_of_good {s : State} {x y n : Nib} (h : n = 0 ∨ s.I.toNat + (n.val - 1) ≤ 0xFFF) :
    exec (.drw x y n) s = .next (s.drawn x y n) :=
  execDrw_of_good h

theorem exec_drw_of_bad {s : State} {x y n : Nib} (h : n ≠ 0 ∧ 0xFFF < s.I.toNat + (n.val - 1)) :
    exec (.drw x y n) s = .fault (.outOfRangeAccess s) :=
  execDrw_of_bad h

/-- A draw that completes found every sprite row in memory. -/
theorem exec_drw_next {s t : State} {x y n : Nib} (h : exec (.drw x y n) s = .next t) :
    (n = 0 ∨ s.I.toNat + (n.val - 1) ≤ 0xFFF) ∧ t = s.drawn x y n := by
  by_cases hgood : n = 0 ∨ s.I.toNat + (n.val - 1) ≤ 0xFFF
  · rw [exec_drw_of_good hgood] at h
    exact ⟨hgood, (Host.Outcome.next.inj h).symm⟩
  · rw [exec_drw_of_bad ((not_or.1 hgood).imp_right Nat.lt_of_not_le)] at h
    exact nomatch h

theorem State.drawn_eq (s : State) (x y n : Nib) :
    s.drawn x y n =
      if s.highRes then { s with V := (s.drawn x y n).V, fbHi := (s.drawn x y n).fbHi }
      else { s with V := (s.drawn x y n).V, fbLo := (s.drawn x y n).fbLo } := by
  unfold State.drawn State.plot
  split <;> rfl

theorem State.pixel_drawn (s : State) (x y n : Nib) {p : Nat} (hp : p < s.width * s.height) :
    (s.drawn x y n).pixel p = if p ∈ drawTargets s x y n then !s.pixel p else s.pixel p :=
  s.pixel_plot _ (drawTargets_lt s x y n) (drawTargets_nodup s x y n) hp

theorem State.getV_drawn_of_ne (s : State) (x y n : Nib) {r : Nib} (hr : r ≠ 15) :
    (s.drawn x y n).getV r = s.getV r := by
  rw [State.drawn, State.getV_setFlag, if_neg hr, State.getV_plot]

/-- The flag of a draw is 1 when one of its pixels was lit, and 0 otherwise. -/
theorem State.getV_drawn_flag (s : State) (x y n : Nib) :
    ((∃ p ∈ drawTargets s x y n, s.pixel p = true) → (s.drawn x y n).getV 15 = 1) ∧
      (¬(∃ p ∈ drawTargets s x y n, s.pixel p = true) → (s.drawn x y n).getV 15 = 0) := by
  rw [State.drawn, State.getV_setFlag, if_pos rfl,
    s.plot_collision _ (drawTargets_lt s x y n) (drawTargets_nodup s x y n), ← List.any_eq_true]
  cases (drawTargets s x y n).any s.pixel <;> decide

/-- Settles O44: the pixels a completed draw plots are the covered ones, and the flag is that of the plot. -/
theorem drawInvertsTheCoveredPixels : Obligations.DrawInvertsTheCoveredPixels := by
  intro s x y n
  simp only [← mem_drawTargets]
  refine ⟨exec_drw_of_bad, fun hgood => ⟨s.drawn x y n, exec_drw_of_good hgood, s.drawn_eq x y n, fun p hp => ?_,
    fun _ hr => s.getV_drawn_of_ne x y n hr, s.getV_drawn_flag x y n⟩⟩
  rw [s.pixel_drawn x y n hp]
  exact ⟨fun hcov => if_pos hcov, fun hnot => if_neg hnot⟩

/-! ## Drawing twice (R218) -/

theorem pixelOf_of_ge {w h : Nat} (fb : Frame w h) {p : Nat} (hw : 0 < w) (hp : w * h ≤ p) :
    pixelOf fb p = false := by
  have hrow : h ≤ p / w := (Nat.le_div_iff_mul_le hw).2 (Nat.mul_comm h w ▸ hp)
  rw [pixelOf, getD_of_ge _ _ hrow]
  simp

theorem State.pixel_of_ge (s : State) {p : Nat} (hp : s.width * s.height ≤ p) : s.pixel p = false := by
  unfold State.width State.height at hp
  unfold State.pixel
  split at hp
  · rw [if_pos ‹_›]
    exact pixelOf_of_ge s.fbHi (by decide) hp
  · rw [if_neg ‹_›]
    exact pixelOf_of_ge s.fbLo (by decide) hp

theorem xorPixels_xorPixels {w h : Nat} (ps : List Nat) (fb : Frame w h) (c c' : Bool) (hps : ∀ p ∈ ps, p < w * h)
    (hn : ps.Nodup) : (xorPixels ps (xorPixels ps fb c).1 c').1 = fb := by
  refine frame_ext fun q hq => ?_
  rw [xorPixels_pixel ps _ c' hps hn hq, xorPixels_pixel ps fb c hps hn hq]
  split
  · exact Bool.not_not _
  · rfl

theorem State.plot_setFlag_plot (s : State) (ps : List Nat) (c : Bool) (hps : ∀ p ∈ ps, p < s.width * s.height)
    (hn : ps.Nodup) :
    (((s.plot ps).1.setFlag c).plot ps).1.fbLo = s.fbLo ∧ (((s.plot ps).1.setFlag c).plot ps).1.fbHi = s.fbHi := by
  unfold State.width State.height at hps
  cases h : s.highRes with
  | true =>
    simp only [h, if_true] at hps
    simp only [State.plot, h, if_true, State.setFlag_highRes, State.setFlag_fbLo, State.setFlag_fbHi, true_and]
    exact xorPixels_xorPixels ps s.fbHi false false hps hn
  | false =>
    simp only [h, Bool.false_eq_true, if_false] at hps
    simp only [State.plot, h, Bool.false_eq_true, if_false, State.setFlag_highRes, State.setFlag_fbLo,
      State.setFlag_fbHi, and_true]
    exact xorPixels_xorPixels ps s.fbLo false false hps hn

@[simp] theorem State.drawn_I (s : State) (x y n : Nib) : (s.drawn x y n).I = s.I := by simp [State.drawn]
@[simp] theorem State.drawn_mem (s : State) (x y n : Nib) : (s.drawn x y n).mem = s.mem := by simp [State.drawn]
@[simp] theorem State.drawn_cfg (s : State) (x y n : Nib) : (s.drawn x y n).cfg = s.cfg := by simp [State.drawn]
@[simp] theorem State.drawn_highRes (s : State) (x y n : Nib) : (s.drawn x y n).highRes = s.highRes := by
  simp [State.drawn]

/-- A draw reads nothing a draw writes, unless `VF` is one of its coordinates. -/
theorem drawTargets_drawn (s : State) {x y : Nib} (n : Nib) (hx : x ≠ 15) (hy : y ≠ 15) :
    drawTargets (s.drawn x y n) x y n = drawTargets s x y n := by
  simp [drawTargets, spriteRows, State.peek, State.width, State.height, s.getV_drawn_of_ne x y n hx,
    s.getV_drawn_of_ne x y n hy]

/-- The pixels of a draw that are lit after it are those it has turned on. -/
theorem exists_target_lit_drawn_iff (s : State) (x y n : Nib) :
    (∃ p ∈ drawTargets s x y n, (s.drawn x y n).pixel p = true) ↔
      ∃ p, s.pixel p = false ∧ (s.drawn x y n).pixel p = true := by
  refine exists_congr fun p => and_congr_left fun hlit => ?_
  have hsize : (s.drawn x y n).width * (s.drawn x y n).height = s.width * s.height := by
    simp [State.width, State.height]
  have hp : p < s.width * s.height := by
    by_contra hge
    rw [State.pixel_of_ge _ (hsize ▸ Nat.le_of_not_lt hge)] at hlit
    exact nomatch hlit
  rw [s.pixel_drawn x y n hp] at hlit
  by_cases hmem : p ∈ drawTargets s x y n
  · rw [if_pos hmem, Bool.not_eq_true'] at hlit
    exact iff_of_true hmem hlit
  · rw [if_neg hmem] at hlit
    exact iff_of_false hmem (by simp [hlit])

/-- Settles O45: the second draw plots the pixels of the first, so it inverts each of them back. -/
theorem drawingTwiceRestoresTheScreen : Obligations.DrawingTwiceRestoresTheScreen := by
  intro s t x y n hx hy h
  obtain ⟨hgood, rfl⟩ := exec_drw_next h
  have htargets := drawTargets_drawn s n hx hy
  have hback := s.plot_setFlag_plot (drawTargets s x y n) (s.plot (drawTargets s x y n)).2
    (drawTargets_lt s x y n) (drawTargets_nodup s x y n)
  have hflag := (s.drawn x y n).getV_drawn_flag x y n
  rw [htargets, exists_target_lit_drawn_iff] at hflag
  refine ⟨_, exec_drw_of_good (by rwa [State.drawn_I]), ?_, ?_, hflag⟩
  · rw [State.drawn, State.setFlag_fbLo, htargets]
    exact hback.1
  · rw [State.drawn, State.setFlag_fbHi, htargets]
    exact hback.2

end Sys2Proof.Machine

/-! When an instruction faults (spec/60_exceptions.md R270 to R274, R278), and what a fault leaves (R276): each answer by
the one condition under which it faults, so that the listed cases exclude each other without being compared. -/

namespace Sys2Proof.Machine

/-! ## Raising -/

theorem raise_eq_fault (e : FaultCode) (s : State) : ∃ f, raise e s = .fault f := by
  cases e <;> exact ⟨_, rfl⟩

theorem raise_inj {e e' : FaultCode} {s : State} (h : raise e s = raise e' s) : e = e' := by
  obtain ⟨f, hf⟩ := raise_eq_fault e s
  obtain ⟨-, hcode⟩ := raise_after e s f hf
  obtain ⟨-, hcode'⟩ := raise_after e' s f (h.symm.trans hf)
  exact hcode.symm.trans hcode'

theorem raise_ne_next (e : FaultCode) (s t : State) : raise e s ≠ .next t := by
  obtain ⟨f, hf⟩ := raise_eq_fault e s
  rw [hf]
  nofun

/-! ## Answers that fault under one condition -/

/-- The answer raises `e` where `P` holds, leaving `s`, and completes elsewhere. -/
def FaultsWhen (o : Out) (s : State) (e : FaultCode) (P : Prop) : Prop :=
  (P → o = raise e s) ∧ (¬P → ∃ t, o = .next t)

theorem faultsWhen_writePc (t : Nat) (s : State) :
    FaultsWhen (writePc t s) s .outOfRangeAccess (badTarget t) :=
  ⟨writePc_of_bad s, fun h => ⟨_, writePc_of_legal s ((not_badTarget_iff t).1 h)⟩⟩

/-- A skip faults where its condition holds and the slot after the next is no address for `pc`. -/
theorem faultsWhen_skipIf {c : Bool} {P : Prop} (hc : c = true ↔ P) (s : State) :
    FaultsWhen (skipIf c s) s .outOfRangeAccess (P ∧ badTarget (s.pc.toNat + 2)) := by
  rw [← hc]
  obtain ⟨rfl, e⟩ | ⟨rfl, hl, e⟩ | ⟨rfl, hb, e⟩ := skipIf_cases c s
  · exact ⟨fun h => absurd h.1 Bool.false_ne_true, fun _ => ⟨_, e⟩⟩
  · exact ⟨fun h => absurd h.2 ((not_badTarget_iff _).2 hl), fun _ => ⟨_, e⟩⟩
  · exact ⟨fun _ => e, fun h => absurd ⟨rfl, hb⟩ h⟩

theorem faultsWhen_whenSuper (s t : State) :
    FaultsWhen (whenSuper s (.next t)) s .invalidOpcode (s.cfg.superEnabled = false) :=
  ⟨whenSuper_off _, fun h => ⟨t, whenSuper_on _ (eq_true_of_ne_false h)⟩⟩

/-- Under the stack invariant the `pc` write of `RET` never fails. -/
theorem faultsWhen_execRet {s : State} (hs : s.stackOk) : FaultsWhen (execRet s) s .stackUnderflow (s.SP = 0) :=
  ⟨execRet_of_empty, fun h => ⟨_, execRet_of_legal h (hs.legalPc_top h)⟩⟩

/-- A key skip faults for an index that names no key (D14), else as the skip on that key's line does. -/
theorem faultsWhen_keySkip {o : Out} {s : State} {n : Nat} {b : Bool} (f : Bool → Bool)
    (hlt : ∀ h : n < 16, o = skipIf (f s.key[n]) s) (hge : 16 ≤ n → o = .fault (.outOfRangeAccess s))
    (hf : ∀ down, f down = true ↔ down = b) :
    FaultsWhen o s .outOfRangeAccess (n > 15 ∨ s.key[n]? = some b ∧ badTarget (s.pc.toNat + 2)) := by
  obtain h | h := Nat.lt_or_ge n 16
  · rw [hlt h]
    have hkey : f s.key[n] = true ↔ s.key[n]? = some b := by
      rw [hf, Vector.getElem?_eq_getElem h, Option.some_inj]
    rw [or_iff_right (Nat.not_lt.2 (Nat.le_of_lt_succ h))]
    exact faultsWhen_skipIf hkey s
  · exact ⟨fun _ => hge h, fun hn => absurd (.inl h) hn⟩

theorem faultsWhen_execDrw (s : State) (x y n : Nib) :
    FaultsWhen (execDrw x y n s) s .outOfRangeAccess (n.val ≠ 0 ∧ s.I.toNat + (n.val - 1) > 0xFFF) := by
  have hn : n.val ≠ 0 ↔ n ≠ 0 := Fin.val_ne_zero_iff
  rw [hn]
  refine ⟨execDrw_of_bad, fun h => ⟨_, execDrw_of_good ?_⟩⟩
  rwa [not_and_or, not_not, Nat.not_lt] at h

theorem faultsWhen_execLdXMem (s : State) (x : Nib) :
    FaultsWhen (execLdXMem x s) s .outOfRangeAccess (s.I.toNat + x.val > 0xFFF) :=
  ⟨execLdXMem_of_bad, fun h => ⟨_, execLdXMem_of_good (Nat.not_lt.1 h)⟩⟩

theorem faultsWhen_execLdBX (s : State) (x : Nib) :
    FaultsWhen (execLdBX x s) s .outOfRangeAccess (s.I.toNat < 0x200 ∨ s.I.toNat + 2 > 0xFFF) := by
  obtain ⟨hlow, htop, e⟩ | ⟨hbad, e⟩ := execLdBX_cases s x
  · exact ⟨fun h => absurd h (by omega), fun _ => ⟨_, e⟩⟩
  · exact ⟨fun _ => e, fun h => absurd hbad h⟩

theorem faultsWhen_execLdMemX (s : State) (x : Nib) :
    FaultsWhen (execLdMemX x s) s .outOfRangeAccess (s.I.toNat < 0x200 ∨ s.I.toNat + x.val > 0xFFF) := by
  obtain ⟨hlow, htop, e⟩ | ⟨hbad, e⟩ := execLdMemX_cases s x
  · exact ⟨fun h => absurd h (by omega), fun _ => ⟨_, e⟩⟩
  · exact ⟨fun _ => e, fun h => absurd hbad h⟩

/-! ## The listed cases, instruction by instruction -/

/-- The instruction answers as the list of its cases says. -/
def FaultsAsListed (s : State) (i : Instr) : Prop :=
  (∀ c, faultCase s i c → exec i s = raise c s) ∧ ((∀ c, ¬faultCase s i c) → ∃ t, exec i s = .next t)

/-- An instruction with one fault and one condition for it. -/
theorem faultsAsListed_of_single {s : State} {i : Instr} {e : FaultCode} {P : Prop}
    (hcase : ∀ c, faultCase s i c ↔ c = e ∧ P) (h : FaultsWhen (exec i s) s e P) : FaultsAsListed s i := by
  refine ⟨fun c hc => ?_, fun hnone => h.2 fun hP => hnone e ((hcase e).2 ⟨rfl, hP⟩)⟩
  obtain ⟨rfl, hP⟩ := (hcase c).1 hc
  exact h.1 hP

/-- The only fault of an instruction outside Super-CHIP, calls and returns is `OutOfRangeAccess`. -/
theorem faultsAsListed_of_range {s : State} {i : Instr} (hsuper : isSuper i = false) (hcall : ∀ nnn, i ≠ .call nnn)
    (hret : ∀ ign, i ≠ .ret ign) (h : FaultsWhen (exec i s) s .outOfRangeAccess (outOfRangeCase s i)) :
    FaultsAsListed s i := by
  refine faultsAsListed_of_single (fun c => ?_) h
  cases c <;> simp [faultCase, hsuper, hcall, hret]

theorem not_outOfRangeCase_of_super (s : State) {i : Instr} (hsuper : isSuper i = true) : ¬outOfRangeCase s i := by
  cases i with
  | scd | scr | scl | exit | low | high | ldRX | ldXR => exact id
  | _ => exact nomatch hsuper

/-- The only fault of a Super-CHIP instruction is `InvalidOpcode`. -/
theorem faultsAsListed_of_super {s t : State} {i : Instr} (hsuper : isSuper i = true)
    (h : exec i s = whenSuper s (.next t)) : FaultsAsListed s i := by
  have hcall (nnn) : i ≠ .call nnn := by rintro rfl; cases hsuper
  have hret (ign) : i ≠ .ret ign := by rintro rfl; cases hsuper
  refine faultsAsListed_of_single (e := .invalidOpcode) (fun c => ?_) (h ▸ faultsWhen_whenSuper s t)
  cases c <;> simp [faultCase, hsuper, hcall, hret, not_outOfRangeCase_of_super s hsuper]

theorem faultsAsListed_of_fault {s : State} {i : Instr} {e : FaultCode} (hcase : ∀ c, faultCase s i c ↔ c = e)
    (h : exec i s = raise e s) : FaultsAsListed s i :=
  ⟨fun c hc => (hcase c).1 hc ▸ h, fun hnone => absurd ((hcase e).2 rfl) (hnone e)⟩

theorem faultsAsListed_of_next {s t : State} {i : Instr} (hcase : ∀ c, ¬faultCase s i c) (h : exec i s = .next t) :
    FaultsAsListed s i :=
  ⟨fun c hc => absurd hc (hcase c), fun _ => ⟨t, h⟩⟩

/-- `CALL` has two faults; a full stack comes before a bad target (D27). -/
theorem faultsAsListed_call (s : State) (nnn : Addr) : FaultsAsListed s (.call nnn) := by
  have hcase (c : FaultCode) : faultCase s (.call nnn) c ↔
      c = .stackOverflow ∧ 16 ≤ s.SP.toNat ∨ c = .outOfRangeAccess ∧ s.SP.toNat < 16 ∧ badTarget nnn.toNat := by
    cases c <;> simp [faultCase, outOfRangeCase, isSuper]
  obtain ⟨hfull, e⟩ | ⟨hroom, hbad, e⟩ | ⟨hroom, hlegal, e⟩ := execCall_cases nnn s
  · refine faultsAsListed_of_fault (e := .stackOverflow) (fun c => ?_) e
    simp [hcase, hfull, Nat.not_lt.2 hfull]
  · refine faultsAsListed_of_fault (e := .outOfRangeAccess) (fun c => ?_) e
    simp only [hcase, hroom, hbad, Nat.not_le.2 hroom, and_true, and_false, false_or]
  · have hgood := (not_badTarget_iff _).2 hlegal
    refine faultsAsListed_of_next (fun c => ?_) e
    simp only [hcase, hgood, Nat.not_le.2 hroom, and_false, or_self, not_false_eq_true]

theorem faultsAsListed {s : State} (hs : s.stackOk) (i : Instr) : FaultsAsListed s i := by
  cases i with
  | call nnn => exact faultsAsListed_call s nnn
  | ret ign =>
    refine faultsAsListed_of_single (fun c => ?_) (faultsWhen_execRet hs)
    cases c <;> simp [faultCase, outOfRangeCase, isSuper]
  | scd | scr | scl | exit | low | high | ldRX | ldXR => exact faultsAsListed_of_super rfl rfl
  | sys | jp | jpV0 => exact faultsAsListed_of_range rfl nofun nofun (faultsWhen_writePc _ s)
  | seKk | sneKk | seXy | sneXy =>
    exact faultsAsListed_of_range rfl nofun nofun (faultsWhen_skipIf decide_eq_true_iff s)
  | skp x =>
    exact faultsAsListed_of_range rfl nofun nofun
      (faultsWhen_keySkip id execSkp_of_lt execSkp_of_ge fun _ => .rfl)
  | sknp x =>
    exact faultsAsListed_of_range rfl nofun nofun
      (faultsWhen_keySkip not execSknp_of_lt execSknp_of_ge (by simp))
  | drw x y n => exact faultsAsListed_of_range rfl nofun nofun (faultsWhen_execDrw s x y n)
  | ldXMem x => exact faultsAsListed_of_range rfl nofun nofun (faultsWhen_execLdXMem s x)
  | ldBX x => exact faultsAsListed_of_range rfl nofun nofun (faultsWhen_execLdBX s x)
  | ldMemX x => exact faultsAsListed_of_range rfl nofun nofun (faultsWhen_execLdMemX s x)
  | _ => exact faultsAsListed_of_range rfl nofun nofun ⟨False.elim, fun _ => ⟨_, rfl⟩⟩

theorem FaultsAsListed.raise_iff {s : State} {i : Instr} (h : FaultsAsListed s i) (c : FaultCode) :
    exec i s = raise c s ↔ faultCase s i c := by
  refine ⟨fun hc => ?_, h.1 c⟩
  by_cases hsome : ∃ c', faultCase s i c'
  · obtain ⟨c', hc'⟩ := hsome
    exact raise_inj ((h.1 c' hc').symm.trans hc) ▸ hc'
  · obtain ⟨t, ht⟩ := h.2 (not_exists.1 hsome)
    exact absurd (hc.symm.trans ht) (raise_ne_next c s t)

/-- Settles O14: an instruction raises a code in its case and completes outside all of them, so no code in another's
case. -/
theorem faultsExactlyInTheListedCases : Obligations.FaultsExactlyInTheListedCases := by
  intro s i hs
  have h := faultsAsListed hs i
  exact ⟨h.raise_iff .invalidOpcode, h.raise_iff .stackOverflow, h.raise_iff .stackUnderflow,
    h.raise_iff .outOfRangeAccess, h.2⟩

/-! ## The state a fault leaves (R271, R276) -/

/-- Below the last slot the advance lands (R123, D8). -/
theorem legalPc_advance {n : Nat} (h : legalPc n = true) (htop : n ≤ 0xFFC) : legalPc (n + 2) = true := by
  rw [legalPc_iff] at h ⊢
  omega

theorem legalPc_le_of_ne_top {p : Word} (h : legalPc p.toNat = true) (htop : p ≠ 0xFFE) : p.toNat ≤ 0xFFC := by
  rw [legalPc_iff] at h
  bv_omega

theorem step_of_invalid {s : State} {e : Reject} (hw : s.waiting = false) (hpc : legalPc s.pc.toNat = true)
    (htop : s.pc.toNat ≤ 0xFFC) (h : decodeWord s.cfg.superEnabled s.wordAtPc = .error e) :
    step s = .fault (.invalidOpcode s.advanced) := by
  have hf := fetchDecode_of_error hpc h
  rw [if_pos (legalPc_advance hpc htop)] at hf
  exact step_of_error hw hf

theorem wellFormed_of_super {i : Instr} (h : isSuper i = true) : wellFormed i = true := by
  cases i with
  | sys => exact nomatch h
  | _ => rfl

/-- Settles O8: the decoder rejects the word at `pc`, by hypothesis or because the gate is off. -/
theorem invalidOpcodeIsRaisedAfterTheAdvance : Obligations.InvalidOpcodeIsRaisedAfterTheAdvance := by
  intro s hw hpc htop
  refine ⟨fun ⟨e, he⟩ => step_of_invalid hw hpc htop he, fun i hi hoff hword => ?_⟩
  refine step_of_invalid (e := .superDisabled) hw hpc htop ?_
  rw [State.wordAtPc, hword, decodeWord_encode (wellFormed_of_super hi), if_pos ⟨hi, hoff⟩]

theorem after_of_fetchDecode_error {s : State} {f : Fault} (hpc : legalPc s.pc.toNat = true)
    (htop : s.pc.toNat ≤ 0xFFC) (h : fetchDecode s = .error f) : f.after = s.advanced := by
  have hadv := legalPc_advance hpc htop
  cases hd : decodeWord s.cfg.superEnabled s.wordAtPc with
  | ok i =>
    rw [fetchDecode_of_ok hpc hd, if_pos hadv] at h
    exact nomatch h
  | error e =>
    rw [fetchDecode_of_error hpc hd, if_pos hadv] at h
    exact Except.error.inj h ▸ rfl

/-- Below the last slot a step that faults has advanced `pc` and done nothing else. -/
theorem after_of_step_fault {s : State} {f : Fault} (hpc : legalPc s.pc.toNat = true) (htop : s.pc.toNat ≤ 0xFFC)
    (h : step s = .fault f) : f.after = s.advanced := by
  obtain ⟨-, e⟩ | ⟨-, f', hf, e⟩ | ⟨-, i, -, -, e⟩ := step_cases s <;> rw [e] at h
  · exact nomatch h
  · exact Host.Outcome.fault.inj h ▸ after_of_fetchDecode_error hpc htop hf
  · exact exec_fault_after h

theorem not_waiting_of_step_fault {s : State} {f : Fault} (h : step s = .fault f) : s.waiting = false := by
  cases hw : s.waiting
  · rfl
  · exact nomatch (step_of_waiting hw).symm.trans h

/-- Settles O13: at the last slot the step is the failed advance; below it the advance lands, and neither an invalid
word nor a fault inside the instruction adds to it. -/
theorem faultLeavesOnlyTheAdvance : Obligations.FaultLeavesOnlyTheAdvance := by
  intro s f hpc h
  split_ifs with htop
  · rw [step_top (not_waiting_of_step_fault h) htop] at h
    exact Host.Outcome.fault.inj h ▸ rfl
  · exact after_of_step_fault hpc (legalPc_le_of_ne_top hpc htop) h

end Sys2Proof.Machine

/-! The key skips (spec/47_keys.md R230, R231). -/

namespace Sys2Proof.Machine

/-- Settles O34: an index below 16 names a key line, which decides the skip; above, both fault (D14). -/
theorem keySkips : Obligations.KeySkips := by
  intro s x
  refine ⟨fun h => ⟨?_, ?_⟩, fun h => ⟨execSkp_of_ge h, execSknp_of_ge h⟩⟩
  · have hskip := skipsWhen_skipIf (s.key[(s.getV x).toNat] = true) s
    rw [Bool.decide_eq_true, ← execSkp_of_lt h] at hskip
    exact hskip
  · have hskip := skipsWhen_skipIf (s.key[(s.getV x).toNat] = false) s
    rw [Bool.decide_eq_false, ← execSknp_of_lt h] at hskip
    exact hskip

end Sys2Proof.Machine

/-! Class 0xF (spec/48_class_f.md): the timers, the index, the transfers. -/

namespace Sys2Proof.Machine

/-! ## The timers and the index (R240, R242 to R245) -/

/-- Settles O46: each meaning is its one update. -/
theorem timerLoads : Obligations.TimerLoads := by
  intro s x
  exact ⟨writesRegister_setV s x s.DT, ⟨{ s with DT := s.getV x }, rfl, rfl, rfl⟩,
    ⟨{ s with ST := s.getV x }, rfl, rfl, rfl⟩⟩

theorem flagByte_decide (P : Prop) [Decidable P] : flagByte (decide P) = if P then 1 else 0 := by
  simp [flagByte]

/-- Five times a byte is below 0x1000, so `SetI` does not cut it. -/
theorem glyphAddress_mod (x : Nib) (s : State) : glyphAddress x s % 0x1000 = (s.getV x).toNat * 5 := by
  rw [glyphAddress]
  omega

/-- Settles O42: the sum goes through `SetI`, and the flag is what `SetI` reports. -/
theorem indexArithmetic : Obligations.IndexArithmetic := by
  intro s x
  refine ⟨⟨_, rfl, rfl, s.setI_I_toNat _, fun r => ?_⟩, ⟨_, rfl, rfl, ?_⟩⟩
  · rw [State.getV_setFlag, State.getV_setI, indexOverflows, flagByte_decide]
    rfl
  · rw [State.setI_I_toNat, glyphAddress_mod]

/-! ## The latch and the key-wait (R241, R288) -/

/-- A press of a key that was up is latched (R288). -/
theorem pressKey_latches {i : Nib} {s : State} (h : s.key[i] = false) :
    (pressKey i true s).latchValid = true ∧ (pressKey i true s).latchKey = i := by
  simp only [pressKey, h, Bool.not_false, Bool.and_self, if_true, and_self]

theorem pressKey_keeps_latch {i : Nib} {pressed : Bool} {s : State} (h : ¬(pressed = true ∧ s.key[i] = false)) :
    (pressKey i pressed s).latchValid = s.latchValid ∧ (pressKey i pressed s).latchKey = s.latchKey := by
  have hlatch : (pressed && !s.key[i]) = false := by
    rwa [← Bool.not_eq_true, Bool.and_eq_true, Bool.not_eq_true']
  simp only [pressKey, hlatch, Bool.false_eq_true, if_false, and_self]

theorem pressKey_key (i j : Nib) (pressed : Bool) (s : State) :
    (pressKey i pressed s).key[j] = if j = i then pressed else s.key[j] := by
  simp only [pressKey, Fin.getElem_fin, Vector.getElem_set, Fin.ext_iff, eq_comm]

@[simp] theorem keyWaitCheck_pc (s : State) : (keyWaitCheck s).pc = s.pc := by
  unfold keyWaitCheck
  split <;> rfl

/-- A step that finds a latched press delivers it and ends the wait (R121). -/
theorem step_of_latched {s : State} (hw : s.waiting = true) (hl : s.latchValid = true) :
    ∃ u, step s = .next u ∧ u.waiting = false ∧ u.pc = s.pc ∧
      ∀ r, (u.getV r).toNat = if r = s.waitReg then s.latchKey.val else (s.getV r).toNat := by
  refine ⟨keyWaitCheck s, step_of_waiting hw, ?_, keyWaitCheck_pc s, getV_keyWaitCheck_of_latched hl⟩
  rw [keyWaitCheck_of_latched hl]

/-- The state `LD Vx, K` leaves. -/
def State.armed (s : State) (x : Nib) : State := { s with waiting := true, waitReg := x, latchValid := false }

theorem exec_ldXK (x : Nib) (s : State) : exec (.ldXK x) s = .next (s.armed x) := rfl

/-- Settles O47: the second press takes the latch from the first, and the key-wait check delivers what is latched. -/
theorem keyWaitDeliversTheLastPress : Obligations.KeyWaitDeliversTheLastPress := by
  intro s x k k'
  refine ⟨s.armed x, exec_ldXK x s, rfl, ?_, fun _ hk' hne => ?_⟩
  · rw [step_of_waiting rfl, keyWaitCheck_of_not_latched rfl]
  · have hup : (pressKey k true (s.armed x)).key[k'] = false := by
      rw [pressKey_key, if_neg hne.symm]
      exact hk'
    obtain ⟨hvalid, hkey⟩ := pressKey_latches hup
    have hdelivered := step_of_latched rfl hvalid
    rw [hkey] at hdelivered
    exact hdelivered

/-! ## The transfers (R246 to R248) -/

theorem getD_decimalDigits (v b : Byte) (k : Nat) : ((decimalDigits v).getD k b).toNat =
    if k = 0 then v.toNat / 100 else if k = 1 then v.toNat / 10 % 10 else if k = 2 then v.toNat % 10 else b.toNat := by
  have := v.isLt
  match k with
  | 0 | 1 | 2 => simp [decimalDigits]; omega
  | k + 3 => simp [decimalDigits]

theorem decimalDigits_length (v : Byte) : (decimalDigits v).length = 3 := rfl

/-- Settles O48: the store is of the three digits at `I`. -/
theorem decimalStore : Obligations.DecimalStore := by
  intro s x hm
  have hlen := decimalDigits_length (s.getV x)
  obtain ⟨hlow, htop, e⟩ | ⟨hbad, e⟩ := execLdBX_cases s x
  · refine ⟨fun h => absurd h (by omega), fun _ _ => ⟨_, e, rfl, fun a => ?_⟩⟩
    rw [State.peek_poke s _ a _ hm (by omega), apply_ite BitVec.toNat, getD_decimalDigits]
    by_cases ha : s.I.toNat ≤ a
    · have hoffset (k : Nat) : a - s.I.toNat = k ↔ a = s.I.toNat + k := by omega
      simp only [ha, if_true, hoffset, Nat.add_zero]
    · rw [if_neg ha, if_neg (by omega), if_neg (by omega), if_neg (by omega)]
  · exact ⟨fun _ => e, fun _ _ => absurd hbad (by omega)⟩

theorem State.peek_poke_of_outside {s : State} {a a' : Nat} {bs : List Byte} (hm : Memory.wf s.cfg s.mem)
    (hlen : a + bs.length ≤ 0x1000) (h : a' < a ∨ a + bs.length ≤ a') : (s.poke a bs).peek a' = s.peek a' := by
  rw [State.peek_poke s a a' bs hm hlen]
  split
  · exact List.getD_eq_default _ _ (by omega)
  · rfl

/-- Settles O49: the store is of the first registers at `I`. -/
theorem registerStore : Obligations.RegisterStore := by
  intro s x hm
  have hlen := firstRegs_length s.V x
  obtain ⟨hlow, htop, e⟩ | ⟨hbad, e⟩ := execLdMemX_cases s x
  · exact ⟨fun h => absurd h (by omega), fun _ _ => ⟨_, e, rfl, fun r hr => peek_poke_firstRegs hm htop hr,
      fun a ha => State.peek_poke_of_outside hm (by omega) (by omega)⟩⟩
  · exact ⟨fun _ => e, fun _ _ => absurd hbad (by omega)⟩

/-- A bank overwritten from its start with `f 0, …, f x`. -/
theorem getElem_overwrite_range (bank : Vector Byte 16) (f : Nat → Byte) (x r : Nib) :
    (overwrite bank 0 ((List.range (x.val + 1)).map f))[r] = if r ≤ x then f r.val else bank[r] := by
  have hread := getElem_overwrite ((List.range (x.val + 1)).map f) bank 0 r.val r.isLt
  rw [if_pos (Nat.zero_le _), Nat.sub_zero] at hread
  refine hread.trans ?_
  by_cases hr : r ≤ x
  · have hlt : r.val < x.val + 1 := Nat.lt_succ_of_le hr
    simp [hr, hlt]
  · have hge : ¬r.val < x.val + 1 := fun h => hr (Nat.le_of_lt_succ h)
    simp [hr, hge]

/-- Settles O50: the registers loaded are the bytes read from `I` up. -/
theorem registerLoad : Obligations.RegisterLoad := by
  intro s x
  exact ⟨execLdXMem_of_bad, fun h => ⟨_, execLdXMem_of_good h, rfl, getElem_overwrite_range s.V _ x⟩⟩

/-! ## The R bank (R250, R251) -/

/-- Registers copied into a bank and out of it again are the ones copied. -/
theorem getElem_overwrite_firstRegs_back (last bank first : Vector Byte 16) {x r : Nib} (hr : r ≤ x) :
    (overwrite last 0 (firstRegs (overwrite bank 0 (firstRegs first x)) x))[r] = first[r] := by
  rw [getElem_overwrite_firstRegs, if_pos hr, getElem_overwrite_firstRegs, if_pos hr]

theorem exec_ldRX_of_on {s : State} {x : Nib} (h : s.cfg.superEnabled = true) :
    exec (.ldRX x) s = .next { s with R := overwrite s.R 0 (firstRegs s.V x) } :=
  whenSuper_on _ h

theorem exec_ldXR_of_on {s : State} {x : Nib} (h : s.cfg.superEnabled = true) :
    exec (.ldXR x) s = .next { s with V := overwrite s.V 0 (firstRegs s.R x) } :=
  whenSuper_on _ h

/-- Settles O51: `reset` keeps the bank (R28), so the second copy takes back what the first one stored. -/
theorem persistentRegisters : Obligations.PersistentRegisters := by
  intro s x
  refine ⟨fun hon => ⟨⟨_, exec_ldRX_of_on hon, rfl, getElem_overwrite_firstRegs s.R s.V x, fun c => ?_⟩,
      ⟨_, exec_ldXR_of_on hon, rfl, getElem_overwrite_firstRegs s.V s.R x⟩⟩,
    fun hoff => ⟨whenSuper_off _ hoff, whenSuper_off _ hoff⟩⟩
  exact ⟨_, exec_ldXR_of_on hon, fun r hr => getElem_overwrite_firstRegs_back _ s.R s.V hr⟩

end Sys2Proof.Machine

/-! The host's operations (spec/60_exceptions.md R285 to R293, spec/70_reset_and_hazards.md). -/

namespace Sys2Proof.Machine

/-! ## Timers and keys (R285, R288, R289) -/

theorem toNat_floored_pred (b : Byte) : (if b = 0 then 0 else b - 1).toNat = b.toNat - 1 := by
  split <;> bv_omega

/-- Settles O53: the two timers are the fields `tick` writes. -/
theorem tickCountsBothTimersDown : Obligations.TickCountsBothTimersDown := by
  intro s
  exact ⟨toNat_floored_pred s.DT, toNat_floored_pred s.ST, rfl⟩

/-- Settles O54: in range `setKey` is `pressKey`, and out of range it is refused. -/
theorem setKeyLatchesOnlyPresses : Obligations.SetKeyLatchesOnlyPresses := by
  refine ⟨fun s i pressed => ⟨pressKey i pressed s, dif_pos i.isLt, rfl, fun j => pressKey_key i j pressed s, ?_,
    pressKey_keeps_latch⟩, fun s index pressed h => ?_⟩
  · rintro ⟨rfl, hup⟩
    exact pressKey_latches hup
  · have href : setKey index pressed s = .error .outOfRangeAccess := dif_neg (Nat.not_lt.2 h)
    exact ⟨href, by rw [HostOp.apply, href]⟩

/-! ## The read accessors (R290, R293) -/

theorem readMem_eq (a : Nat) (s : State) :
    readMem a s = if a ≤ 0xFFF then .ok (s.peek a) else .error .outOfRangeAccess := by
  split
  · rw [readMem, memRead_eq_some ‹_›]
  · rw [readMem, memRead_eq_none (Nat.lt_of_not_le ‹_›)]

/-- Settles O57: each accessor tests its own range, and in range reads the field. -/
theorem accessorsRangeCheck : Obligations.AccessorsRangeCheck := by
  intro s j
  refine ⟨fun h => ⟨?_, ?_⟩, fun h => ⟨?_, ?_⟩, readMem_eq j s, ?_⟩
  · rw [readV, Vector.getElem?_eq_getElem h]; rfl
  · rw [isKey, Vector.getElem?_eq_getElem h]
  · rw [readV, Vector.getElem?_eq_none h]
  · rw [isKey, Vector.getElem?_eq_none h]
  · have hsize : s.width * s.height = if s.highRes then 8192 else 2048 := by
      unfold State.width State.height; split <;> rfl
    rw [pixelAt, hsize, State.pixel]

/-! ## Reset (R320, R321) -/

/-- A reset that clears memory leaves the reset contents everywhere, one that does not only where the font stands. -/
theorem peek_hostReset (c : Bool) (s : State) (a : Nat) :
    (hostReset c s).peek a = if 80 ≤ a ∧ c = false then s.peek a else resetByte s.cfg a := by
  cases c
  · have := Memory.read_filter s.cfg s.mem (fun a => a ≥ 80) a
    simpa [State.peek, hostReset] using this
  · simp [State.peek, hostReset, Memory.read]

/-- A vector filled with the default reads as it everywhere. -/
theorem getD_replicate {α : Type} (n : Nat) (a : α) (j : Nat) : (Vector.replicate n a).getD j a = a := by
  obtain h | h := Nat.lt_or_ge j n
  · rw [getD_of_lt _ _ h, Vector.getElem_replicate]
  · exact getD_of_ge _ _ h

/-- Settles O55: memory by `peek_hostReset`, every other line by the value `reset` writes. -/
theorem resetLeavesTheListedValues : Obligations.ResetLeavesTheListedValues := by
  intro s c _
  refine ⟨fun a h => ?_, fun a h => ?_, ?_⟩
  · rw [peek_hostReset, if_neg (by omega), resetByte_of_lt _ h]
  · rw [peek_hostReset, resetByte_of_le _ h]
    cases c <;> simp [h]
  · exact ⟨fun r => Vector.getElem_replicate r.isLt, rfl, rfl, rfl, rfl, getD_replicate 16 0, rfl,
      fun k => Vector.getElem_replicate k.isLt, rfl, rfl, rfl, rfl, rfl,
      fun p => ⟨pixelOf_blankFrame p, pixelOf_blankFrame p⟩, rfl, rfl⟩

/-! ## Loading a program (R326 to R328) -/

/-- Settles O56: `loadProgram` is one store at 0x200, cut to the 0xE00 bytes that fit. -/
theorem loadProgramCopiesAndTruncates : Obligations.LoadProgramCopiesAndTruncates := by
  intro s bytes hm
  have hlen : (bytes.take 0xE00).length = min 0xE00 bytes.length := List.length_take
  refine ⟨rfl, fun k h hk => ?_, fun a ha => State.peek_poke_of_outside hm (by omega) (by omega)⟩
  rw [loadProgram, State.peek_poke s _ _ _ hm (by omega), if_pos (Nat.le_add_right ..), Nat.add_sub_cancel_left]
  simp [h, hk]

end Sys2Proof.Machine
